-- ==== Sys2Proof/Word.lean ====
section
/-! DEFINITION. The widths of the machine's words (`00_scope.md` R7, R8). -/

namespace Sys2Proof

/-- A general register, a memory location, an immediate `nn` (R7 `XLEN`, R61). -/
abbrev Byte := BitVec 8

/-- The program counter, the index register, a stack entry, an instruction word (R7). -/
abbrev Word := BitVec 16

/-- The fields `x`, `y` and `n` of an instruction word, and a key code (R61, R18). -/
abbrev Nibble := BitVec 4

/-- The 12-bit address operand `nnn` (R61). -/
abbrev Addr12 := BitVec 12

end Sys2Proof
end

