-- ==== Sys2Proof/Syntax.lean ====
section
/-! DEFINITION. The 30 instructions of `30_encoding.md` R64, one constructor per row of spec/opcode_table.json, in the
order of that table, and the names R64 and R68 give them. An operand has exactly the width of its field (R61), so no
ill-formed instruction term exists. Beside them, the actions of the host (R6, R87). -/

namespace Sys2Proof

/-- One constructor per row of the opcode map (R64). `x` and `y` are register indices. -/
inductive Instr where
  /-- 00E0, R142: clear the display. -/
  | cls
  /-- 00EE, R100: return from subroutine. -/
  | ret
  /-- 1nnn, R101: jump. -/
  | jp (nnn : Addr12)
  /-- 2nnn, R102: call subroutine. -/
  | call (nnn : Addr12)
  /-- 3xnn, R103: skip if register equals immediate. -/
  | seImm (x : Nibble) (nn : Byte)
  /-- 4xnn, R104: skip if register differs from immediate. -/
  | sneImm (x : Nibble) (nn : Byte)
  /-- 5xy0, R105: skip if two registers are equal. -/
  | seReg (x y : Nibble)
  /-- 6xnn, R120: load immediate. -/
  | ldImm (x : Nibble) (nn : Byte)
  /-- 7xnn, R121: add immediate, no flag. -/
  | addImm (x : Nibble) (nn : Byte)
  /-- 8xy0, R122: register move. -/
  | ldReg (x y : Nibble)
  /-- 8xy2, R123: bitwise AND. -/
  | andReg (x y : Nibble)
  /-- 8xy3, R124: bitwise exclusive OR. -/
  | xorReg (x y : Nibble)
  /-- 8xy4, R125: add with carry flag. -/
  | addReg (x y : Nibble)
  /-- 8xy5, R126: subtract with no-borrow flag. -/
  | sub (x y : Nibble)
  /-- 8xy6, R127: shift `V[y]` right by one into `V[y]` and `V[x]`. -/
  | shr (x y : Nibble)
  /-- 9xy0, R106: skip if two registers differ. -/
  | sneReg (x y : Nibble)
  /-- Annn, R180: load the index register. -/
  | ldI (nnn : Addr12)
  /-- Cxnn, R128: masked random byte. -/
  | rnd (x : Nibble) (nn : Byte)
  /-- Dxyn, R143: draw an `n`-row sprite. -/
  | drw (x y n : Nibble)
  /-- Ex9E, R161: skip if the key named by `V[x]` is pressed. -/
  | skp (x : Nibble)
  /-- ExA1, R162: skip if the key named by `V[x]` is not pressed. -/
  | sknp (x : Nibble)
  /-- Fx07, R164: read the delay timer. -/
  | ldVxDt (x : Nibble)
  /-- Fx0A, R163: wait for a key, then load its code. -/
  | ldVxK (x : Nibble)
  /-- Fx15, R165: write the delay timer. -/
  | ldDtVx (x : Nibble)
  /-- Fx18, R166: the sound-timer write, which changes nothing but `pc`. -/
  | ldStVx (x : Nibble)
  /-- Fx1E, R181: add a register to the index register. -/
  | addI (x : Nibble)
  /-- Fx29, R182: point the index register at a font glyph. -/
  | ldF (x : Nibble)
  /-- Fx33, R183: store the three decimal digits of a register. -/
  | ldB (x : Nibble)
  /-- Fx55, R184: store `V[0]..V[x]` and advance the index register. -/
  | stRegs (x : Nibble)
  /-- Fx65, R185: load `V[0]..V[x]`. -/
  | ldRegs (x : Nibble)
  deriving DecidableEq, Repr

/-- The table key of R68, as spec/opcode_table.json spells it. -/
def Instr.mnemonic : Instr → String
  | .cls => "CLS" | .ret => "RET" | .jp _ => "JP" | .call _ => "CALL"
  | .seImm _ _ => "SE_IMM" | .sneImm _ _ => "SNE_IMM" | .seReg _ _ => "SE_REG"
  | .ldImm _ _ => "LD_IMM" | .addImm _ _ => "ADD_IMM" | .ldReg _ _ => "LD_REG"
  | .andReg _ _ => "AND" | .xorReg _ _ => "XOR" | .addReg _ _ => "ADD_REG" | .sub _ _ => "SUB" | .shr _ _ => "SHR"
  | .sneReg _ _ => "SNE_REG" | .ldI _ => "LD_I" | .rnd _ _ => "RND" | .drw _ _ _ => "DRW"
  | .skp _ => "SKP" | .sknp _ => "SKNP" | .ldVxDt _ => "LD_VX_DT" | .ldVxK _ => "LD_VX_K"
  | .ldDtVx _ => "LD_DT_VX" | .ldStVx _ => "LD_ST_VX" | .addI _ => "ADD_I" | .ldF _ => "LD_F"
  | .ldB _ => "LD_B" | .stRegs _ => "ST_REGS" | .ldRegs _ => "LD_REGS"

/-- The source's own name of the instruction, its hexadecimal pattern (R64, R68). -/
def Instr.pattern : Instr → String
  | .cls => "00E0" | .ret => "00EE" | .jp _ => "1nnn" | .call _ => "2nnn"
  | .seImm _ _ => "3xnn" | .sneImm _ _ => "4xnn" | .seReg _ _ => "5xy0"
  | .ldImm _ _ => "6xnn" | .addImm _ _ => "7xnn" | .ldReg _ _ => "8xy0"
  | .andReg _ _ => "8xy2" | .xorReg _ _ => "8xy3" | .addReg _ _ => "8xy4" | .sub _ _ => "8xy5" | .shr _ _ => "8xy6"
  | .sneReg _ _ => "9xy0" | .ldI _ => "Annn" | .rnd _ _ => "Cxnn" | .drw _ _ _ => "Dxyn"
  | .skp _ => "Ex9E" | .sknp _ => "ExA1" | .ldVxDt _ => "Fx07" | .ldVxK _ => "Fx0A"
  | .ldDtVx _ => "Fx15" | .ldStVx _ => "Fx18" | .addI _ => "Fx1E" | .ldF _ => "Fx29"
  | .ldB _ => "Fx33" | .stRegs _ => "Fx55" | .ldRegs _ => "Fx65"

/-- One upper-case hexadecimal digit, the spelling R68 uses for a register index. -/
def hexDigit (k : Nibble) : String :=
  ["0", "1", "2", "3", "4", "5", "6", "7", "8", "9", "A", "B", "C", "D", "E", "F"].getD k.toNat "0"

/-- A register operand as R68 writes it: `V0`..`VF`. -/
def regName (x : Nibble) : String := "V" ++ hexDigit x

/-- A byte operand as the programs of `95_test_vectors.md` write it: `0x05`. -/
def hexByte (b : Byte) : String := "0x" ++ hexDigit (b.extractLsb' 4 4) ++ hexDigit (b.extractLsb' 0 4)

/-- A 12-bit address operand: `0x20C`. -/
def hexAddr (a : Addr12) : String :=
  "0x" ++ hexDigit (a.extractLsb' 8 4) ++ hexDigit (a.extractLsb' 4 4) ++ hexDigit (a.extractLsb' 0 4)

/-- The assembler spelling of R68. A label only: no rule depends on it (D23). -/
def Instr.assembly : Instr → String
  | .cls => "CLS"
  | .ret => "RET"
  | .jp a => "JP " ++ hexAddr a
  | .call a => "CALL " ++ hexAddr a
  | .seImm x nn => "SE " ++ regName x ++ ", " ++ hexByte nn
  | .sneImm x nn => "SNE " ++ regName x ++ ", " ++ hexByte nn
  | .seReg x y => "SE " ++ regName x ++ ", " ++ regName y
  | .ldImm x nn => "LD " ++ regName x ++ ", " ++ hexByte nn
  | .addImm x nn => "ADD " ++ regName x ++ ", " ++ hexByte nn
  | .ldReg x y => "LD " ++ regName x ++ ", " ++ regName y
  | .andReg x y => "AND " ++ regName x ++ ", " ++ regName y
  | .xorReg x y => "XOR " ++ regName x ++ ", " ++ regName y
  | .addReg x y => "ADD " ++ regName x ++ ", " ++ regName y
  | .sub x y => "SUB " ++ regName x ++ ", " ++ regName y
  | .shr x y => "SHR " ++ regName x ++ ", " ++ regName y
  | .sneReg x y => "SNE " ++ regName x ++ ", " ++ regName y
  | .ldI a => "LD I, " ++ hexAddr a
  | .rnd x nn => "RND " ++ regName x ++ ", " ++ hexByte nn
  | .drw x y n => "DRW " ++ regName x ++ ", " ++ regName y ++ ", " ++ Nat.repr n.toNat
  | .skp x => "SKP " ++ regName x
  | .sknp x => "SKNP " ++ regName x
  | .ldVxDt x => "LD " ++ regName x ++ ", DT"
  | .ldVxK x => "LD " ++ regName x ++ ", K"
  | .ldDtVx x => "LD DT, " ++ regName x
  | .ldStVx x => "LD ST, " ++ regName x
  | .addI x => "ADD I, " ++ regName x
  | .ldF x => "LD F, " ++ regName x
  | .ldB x => "LD B, " ++ regName x
  | .stRegs x => "LD [I], " ++ regName x
  | .ldRegs x => "LD " ++ regName x ++ ", [I]"

/-- What the host may do between steps (R6, R87), reads apart: a read changes nothing. -/
inductive HostAction where
  /-- One delay-timer tick (R213). -/
  | tick
  /-- Present no key, or one key 0x0..0xF (R18, R87). -/
  | setKey (key : Option Nibble)
  /-- Present a byte on the random input for the next sample (R19). -/
  | supplyRandom (b : Byte)
  /-- Reset, and then the placing of a ROM image at 0x200 before the first step (R230, R232). -/
  | reset (image : List Byte)
  deriving DecidableEq, Repr

end Sys2Proof
end

