-- ==== Sys2Proof/Config.lean ====
section
/-! DEFINITION. What is fixed for the machine (`00_scope.md` R7) and the one free value the spec leaves open
(`10_state.md` R19). The parameters the spec calls OPEN are the structure `Params`, an argument of the whole machine; the
values this hardware takes for them stand in Machine/Params.lean. -/

namespace Sys2Proof.Config

/-- `MEM_SIZE`: the number of memory locations (R7, R40). -/
abbrev memSize : Nat := 4096

/-- `PROG_BASE`: the reset value of `pc` and the load address of the ROM image (R7, R12, R232). -/
abbrev progBase : Nat := 0x200

/-- The largest ROM image that can be placed: 0xFFF - 0x200 + 1 bytes (R232). -/
abbrev maxImage : Nat := 3584

/-- `DISP_H` and `DISP_W`: the display's rows and columns (R7, R140). -/
abbrev dispRows : Nat := 32
/-- See `dispRows`. -/
abbrev dispCols : Nat := 64

/-- The values of the parameter `ADD_VF_NO_CARRY` (R7, R125, D2). -/
inductive AddVfPolicy where
  /-- VF is written 0 when 8xy4 has no carry: the spec's choice, this hardware's behaviour. -/
  | clear
  /-- VF is left as it was: the literal reading of the source's table row, not this hardware's behaviour. -/
  | keep
  deriving DecidableEq, Repr

/-- The parameters a model takes as arguments (R7): the machine is defined for every value of them (log 23). -/
structure Params where
  /-- `STACK_DEPTH`: the call stack's capacity, at least 1 (R14, D7). -/
  stackDepth : Nat
  /-- `FONT_TABLE`: the 80 bytes at 0x000..0x04F, glyph `d` at `d * 5`, glyph 0 fixed by the source (R43, D11). -/
  fontTable : Vector Byte 80
  /-- `MEM_FILL`: what memory outside the font table holds at reset (R42, D10). -/
  memFill : Byte
  /-- `ADD_VF_NO_CARRY`: what 8xy4 does to VF when there is no carry (R125, D2). -/
  addVfNoCarry : AddVfPolicy
  deriving DecidableEq, Repr

/-- The byte that the `k`-th sample of the random input gives, where the host has presented none.
A free value: no body, so nothing can be proved of it (R19 "a free 8-bit value under no law", D13; log 9). -/
opaque freeByte : Nat → Byte

end Sys2Proof.Config
end

