-- ==== Sys2Proof/Machine/Params.lean ====
section
/-! DEFINITION. The values this hardware takes for the parameters the spec calls OPEN (`00_scope.md` R7): STACK_DEPTH,
FONT_TABLE, MEM_FILL and ADD_VF_NO_CARRY. They are the defaults of `Config.Params`, which the machine takes as an argument
(log 23). -/

namespace Sys2Proof.Machine

/-- Glyphs 0 to 3. Glyph 0 is the source's, the others are general knowledge (R43, D11; log 4). -/
def fontGlyphs0to3 : List Byte :=
  [0xF0, 0x90, 0x90, 0x90, 0xF0] ++ [0x20, 0x60, 0x20, 0x20, 0x70] ++
  [0xF0, 0x10, 0xF0, 0x80, 0xF0] ++ [0xF0, 0x10, 0xF0, 0x10, 0xF0]

/-- Glyphs 4 to 7 (R43; log 4). -/
def fontGlyphs4to7 : List Byte :=
  [0x90, 0x90, 0xF0, 0x10, 0x10] ++ [0xF0, 0x80, 0xF0, 0x10, 0xF0] ++
  [0xF0, 0x80, 0xF0, 0x90, 0xF0] ++ [0xF0, 0x10, 0x20, 0x40, 0x40]

/-- Glyphs 8 to B (R43; log 4). -/
def fontGlyphs8toB : List Byte :=
  [0xF0, 0x90, 0xF0, 0x90, 0xF0] ++ [0xF0, 0x90, 0xF0, 0x10, 0xF0] ++
  [0xF0, 0x90, 0xF0, 0x90, 0x90] ++ [0xE0, 0x90, 0xE0, 0x90, 0xE0]

/-- Glyphs C to F (R43; log 4). -/
def fontGlyphsCtoF : List Byte :=
  [0xF0, 0x80, 0x80, 0x80, 0xF0] ++ [0xE0, 0x90, 0x90, 0x90, 0xE0] ++
  [0xF0, 0x80, 0xF0, 0x80, 0xF0] ++ [0xF0, 0x80, 0xF0, 0x80, 0x80]

/-- The default of `FONT_TABLE`: the 80 bytes at 0x000..0x04F (R43, D11; log 4). -/
def fontTable : Vector Byte 80 :=
  Vector.mk (fontGlyphs0to3 ++ fontGlyphs4to7 ++ fontGlyphs8toB ++ fontGlyphsCtoF).toArray rfl

/-- The parameters of this hardware: 16 stack entries (D7; log 2), the font table, memory filled with 0x00 (D10; log 5),
VF cleared by an 8xy4 without carry (D2; log 3). -/
def defaultParams : Config.Params where
  stackDepth := 16
  fontTable := fontTable
  memFill := 0x00
  addVfNoCarry := .clear

end Sys2Proof.Machine
end

