-- ==== Sys2Proof/WellFormed.lean ====
section
/-! DEFINITION. What the types leave to be checked. An instruction's operands have the width of their fields, so every
term of `Instr` is well formed (R61, R63: all 16 register indices and every immediate are valid). What is left is the
ROM image of a reset (`70_reset_and_hazards.md` R232) and so a schedule of host actions; and the machine's parameters
(`00_scope.md` R7). -/

namespace Sys2Proof

/-- A ROM image that can be placed: at most 3584 bytes (R232). -/
def imageFits (image : List Byte) : Bool := image.length ≤ Config.maxImage

/-- A host action that the host can perform: a reset places an image that fits. -/
def HostAction.wf : HostAction → Bool
  | .tick => true
  | .setKey _ => true
  | .supplyRandom _ => true
  | .reset image => imageFits image

/-- A schedule of host actions is well formed when every action of every batch is. -/
def scheduleWf (host : List (List HostAction)) : Bool := host.all fun batch => batch.all HostAction.wf

/-- Legal parameters: a call stack of at least one entry (R7), and glyph 0 as the source gives it (R7, R43). -/
def Config.Params.wf (p : Config.Params) : Bool :=
  decide (1 ≤ p.stackDepth) && p.fontTable.toList.take 5 == [0xF0, 0x90, 0x90, 0x90, 0xF0]

end Sys2Proof
end

