-- ==== Sys2Proof/Machine/State.lean ====
section
/-! DEFINITION. The state of the machine (`10_state.md`), every piece the spec names and the inputs and outputs of the block
(`00_scope.md` R5), as plain data; the reasons a step can stop; the state right after reset
(`70_reset_and_hazards.md` R231). -/

namespace Sys2Proof.Machine

/-- The six values of `fault_cause` that occur (`10_state.md` R20, `60_exceptions.md` R200). -/
inductive FaultCause where
  /-- 0: no fault since reset. -/
  | none
  /-- 1: the fetched word matches no row of the opcode map (R201). -/
  | unknownOpcode
  /-- 2: 00EE with an empty call stack (R202). -/
  | stackUnderflow
  /-- 3: 2nnn with a full call stack (R203). -/
  | stackOverflow
  /-- 4: `pc` above 0x0FFE at the fetch (R204). -/
  | fetchRange
  /-- 5: a data access above 0xFFF (R205). -/
  | dataRange
  deriving DecidableEq, Repr

/-- The fault record, the four fields of `10_state.md` R20. -/
structure FaultRecord where
  /-- `fault_cause`. -/
  cause : FaultCause
  /-- `fault_pc`: the address of the faulting instruction's first byte. -/
  pc : Word
  /-- `fault_word`: the raw instruction word; 0x0000 where none was fetched. -/
  word : Word
  /-- `fault_addr`: the first out-of-range address; 0x0000 for the causes without one. -/
  addr : Word
  deriving DecidableEq, Repr

/-- The record before any fault: cause 0 and the other fields 0 (R20, R231). -/
def FaultRecord.clear : FaultRecord := ⟨.none, 0, 0, 0⟩

/-- Memory (`20_memory.md` R40) as the list of the cells that differ from what memory holds at reset, addresses strictly
rising (log 5). What an address not listed reads as is `Memory.resetByte` in Machine/Ops.lean. -/
abbrev Memory := List Host.Cell

/-- The display buffer (`43_display.md` R140): 32 rows of 64 one-bit pixels, true for on. -/
abbrev Display := Vector (Vector Bool 64) 32

/-- Every piece of state the spec gives the machine, its inputs and outputs, and the model's own
`draws`, `host` and `params`. -/
structure State where
  /-- `V[0]`..`V[15]` (R10); VF is `V[15]` (R11). -/
  v : Vector Byte 16
  /-- The index register `I` (R13). -/
  i : Word
  /-- The program counter (R12). -/
  pc : Word
  /-- The valid entries of the call stack, top first; `sp` is the length (R14; log 7). -/
  stack : List Word
  /-- Memory (R15, R40). -/
  mem : Memory
  /-- The display buffer (R16). -/
  disp : Display
  /-- The delay timer (R17). -/
  dt : Byte
  /-- The machine has faulted and takes no more steps (R20). -/
  halted : Bool
  /-- The fault record (R20). -/
  fault : FaultRecord
  /-- Input: the key state, none or one key code, as the host last set it (R18; log 8). -/
  key : Option Nibble
  /-- Input: the byte the host presents for the next random sample; none: the sample is a free value (R19; log 9). -/
  rnd : Option Byte
  /-- The model's own: how many random bytes have been sampled, the argument of the free value (R19; log 9). -/
  draws : Nat
  /-- Output: how many `frame_ready` pulses were given since reset (R146; log 13). -/
  frames : Nat
  /-- The model's own: the host's schedule, one batch of actions before each step (R6, R87; log 10). -/
  host : List (List HostAction)
  /-- The model's own: the machine's parameters (R7), the argument the whole machine takes; nothing writes them (log 23). -/
  params : Config.Params
  deriving DecidableEq, Repr

/-- Why a step has no next state. -/
inductive Fault where
  /-- Raised by `step`, and by nothing else, when the machine is halted after the host's actions: a halted machine takes
  no step (R86, R207). `cause` is the recorded cause. Safe: the hardware does nothing here, the model stops (log 1). -/
  | halted (cause : FaultCause)
  deriving DecidableEq, Repr

/-- Why an instruction has no meaning. -/
inductive Refusal where
  /-- Raised by an arm of `exec` whose instruction is not modelled yet; no arm raises it. Safe: the model stops. -/
  | notModelled (mnemonic : String)
  deriving DecidableEq, Repr

/-- The outcome of an instruction or of a step. -/
abbrev Result := Host.Outcome State Fault Refusal

/-- A machine with the parameters `p` right after reset (R231), no program placed: `pc` at 0x0200, the stack empty, the
display off, memory at its reset contents, every other register 0 (log 6), no key presented (log 8) and nothing scheduled
(log 10). -/
def State.resetWith (p : Config.Params) : State where
  v := Vector.replicate 16 0
  i := 0
  pc := 0x0200
  stack := []
  mem := []
  disp := Vector.replicate 32 (Vector.replicate 64 false)
  dt := 0
  halted := false
  fault := FaultRecord.clear
  key := none
  rnd := none
  draws := 0
  frames := 0
  host := []
  params := p

/-- The machine right after reset, with the parameters of this hardware. -/
def State.reset : State := State.resetWith defaultParams

end Sys2Proof.Machine
end

