-- ==== Sys2Proof/Machine/Operands.lean ====
section
/-! DEFINITION. The operand forms (`30_encoding.md` R63, `45_index_memory.md` R186): a register, a block of registers, an
immediate, the key state. Immediates are taken as they stand; widening is by zeros. -/

namespace Sys2Proof.Machine

/-- Read of `V[x]` (R8, R10). -/
def State.readV (s : State) (x : Nibble) : Byte := s.v[x.toNat]'x.isLt

/-- `V[x] <- b` (R8, R10). No register is hard-wired. -/
def State.writeV (s : State) (x : Nibble) (b : Byte) : State := { s with v := s.v.set x.toNat b x.isLt }

/-- The register block `V[0], ..., V[x]`, `x` inclusive (R184). -/
def State.readBlock (s : State) (x : Nibble) : List Byte := s.v.toList.take (x.toNat + 1)

/-- `V[k], V[k+1], ...` take the bytes of a list; a byte past `V[15]` goes nowhere (R185: never more than 16). -/
def loadBlock (k : Nat) : List Byte → Vector Byte 16 → Vector Byte 16
  | [], v => v
  | b :: bs, v => loadBlock (k + 1) bs (if h : k < 16 then v.set k b h else v)

/-- `V[0]..` take the bytes of a list, the lowest address first (R185). -/
def State.writeBlock (s : State) (bytes : List Byte) : State := { s with v := loadBlock 0 bytes s.v }

/-- VF, the register that doubles as the flag (R11). -/
abbrev vf : Nibble := 15

/-- `zext_16(nnn)` (R63). -/
def zextAddr (nnn : Addr12) : Word := nnn.setWidth 16

/-- `zext_16` of a register value (R181, R182). -/
def zextByte (b : Byte) : Word := b.setWidth 16

/-- `zext_8` of a key code (R160, R163). -/
def zextKey (k : Nibble) : Byte := k.setWidth 8

/-- `KeyIs(c)`: some key is pressed and its code, widened with zeros, is `c`; all 8 bits are compared (R160, D14; log 18). -/
def State.keyIs (s : State) (c : Byte) : Bool :=
  match s.key with
  | none => false
  | some k => zextKey k == c

/-- The three decimal digits of a byte, hundreds first (R183). -/
def bcdDigits (a : Byte) : List Byte :=
  [BitVec.ofNat 8 (a.toNat / 100), BitVec.ofNat 8 (a.toNat / 10 % 10), BitVec.ofNat 8 (a.toNat % 10)]

end Sys2Proof.Machine
end

