-- ==== Sys2Proof/Machine/Ops.lean ====
section
/-! DEFINITION. The named operations every instruction is written over: memory (`20_memory.md`), the call stack
(`10_state.md` R14), the program counter (`40_step_cycle.md` R83), taking a fault (`60_exceptions.md` R207), fetch and
decode (R81, R82). -/

namespace Sys2Proof.Machine

/-! ### Memory -/

/-- What memory holds at reset, and so what an address not listed reads as: FONT_TABLE at 0x000..0x04F, MEM_FILL
elsewhere (R42, R43; log 4, log 5). -/
def Memory.resetByte (p : Config.Params) (a : Nat) : Byte := if h : a < 80 then p.fontTable[a] else p.memFill

/-- One byte of memory. -/
def Memory.read : Memory → Config.Params → Nat → Byte
  | [], p, a => Memory.resetByte p a
  | (a', b) :: m, p, a => if a = a' then b else Memory.read m p a

/-- List a byte at an address, keeping the addresses rising. -/
def Memory.insert (a : Nat) (b : Byte) : Memory → Memory
  | [] => [(a, b)]
  | (a', b') :: m =>
    if a < a' then (a, b) :: (a', b') :: m
    else if a = a' then (a, b) :: m
    else (a', b') :: Memory.insert a b m

/-- `mem[a] <- b`. Writing what an unlisted address reads as removes the entry. -/
def Memory.write (m : Memory) (p : Config.Params) (a : Nat) (b : Byte) : Memory :=
  if b = Memory.resetByte p a then m.filter (fun c => c.1 != a) else Memory.insert a b m

/-- The canonical form: addresses below 4096 and strictly rising, no entry equal to what an unlisted address reads as. -/
abbrev Memory.wf (m : Memory) (p : Config.Params) : Prop :=
  m.Pairwise (fun c d => c.1 < d.1) ∧ ∀ c ∈ m, c.1 < Config.memSize ∧ c.2 ≠ Memory.resetByte p c.1

/-- The `n` bytes from `a` up, lowest address first. -/
def Memory.readBytes (m : Memory) (p : Config.Params) (a : Nat) : Nat → List Byte
  | 0 => []
  | n + 1 => m.read p a :: m.readBytes p (a + 1) n

/-- Store the bytes of a list from `a` up. -/
def Memory.writeBytes (m : Memory) (p : Config.Params) (a : Nat) : List Byte → Memory
  | [] => m
  | b :: bs => (m.write p a b).writeBytes p (a + 1) bs

/-- The byte a machine reads at an address. -/
def State.readByte (s : State) (a : Nat) : Byte := s.mem.read s.params a

/-- The first of the `n` addresses from `a` up that is above 0xFFF (R41): natural numbers, no wrap. -/
def firstOutOfRange (a : Nat) : Nat → Option Nat
  | 0 => none
  | n + 1 => if a > 0xFFF then some a else firstOutOfRange (a + 1) n

/-- `MemRead(a, n)`: every address is checked first; the error is the first one out of range (R41, R48; log 15). -/
def memRead (m : Memory) (p : Config.Params) (a n : Nat) : Except Nat (List Byte) :=
  match firstOutOfRange a n with
  | some bad => .error bad
  | none => .ok (m.readBytes p a n)

/-- `MemWrite(a, n, v)`: every address is checked before any byte moves (R41, R85). -/
def memWrite (m : Memory) (p : Config.Params) (a : Nat) (bytes : List Byte) : Except Nat Memory :=
  match firstOutOfRange a bytes.length with
  | some bad => .error bad
  | none => .ok (m.writeBytes p a bytes)

/-! ### The program counter (R83): modulo 65536 (D16; log 17) -/

/-- "+2": the next instruction. -/
def State.advance (s : State) : State := { s with pc := s.pc + 2 }

/-- "+4 or +2": a skip when the condition holds (R107). -/
def State.skipIf (c : Bool) (s : State) : State := { s with pc := if c then s.pc + 4 else s.pc + 2 }

/-- "set absolute". -/
def State.jumpTo (s : State) (target : Word) : State := { s with pc := target }

/-! ### The call stack (R14) -/

/-- `sp`: the number of valid entries. -/
def State.sp (s : State) : Nat := s.stack.length

/-- `Push(r)` on a stack of the given capacity; none when it is full. -/
def push (depth : Nat) (r : Word) (stack : List Word) : Option (List Word) :=
  if stack.length < depth then some (r :: stack) else none

/-- `Pop()`: the newest entry and the entries left; none when there is none. -/
def pop : List Word → Option (Word × List Word)
  | [] => none
  | r :: rest => some (r, rest)

/-! ### Faults (R200 to R208) -/

/-- The numeric code of a cause, the value of the port `fault_cause` (R200, D18; log 20). -/
def FaultCause.code : FaultCause → BitVec 3
  | .none => 0
  | .unknownOpcode => 1
  | .stackUnderflow => 2
  | .stackOverflow => 3
  | .fetchRange => 4
  | .dataRange => 5

/-- Taking a fault (R207): `halted` is set, the record is written as R200 says, nothing else changes, so `pc` still
addresses the faulting instruction. There is no handler and no return (R210). -/
def takeFault (cause : FaultCause) (word : Word) (addr : Nat) (s : State) : State :=
  { s with halted := true, fault := ⟨cause, s.pc, word, BitVec.ofNat 16 addr⟩ }

/-- The word a decode error records: the word itself (R201). -/
def decodeErrorWord : DecodeError → Word
  | .truncated => 0
  | .unknownOpcode w => w

/-- Fetch and decode (R81, R82): the instruction at `pc`, or the state after the fault they raise. -/
def fetchDecode (s : State) : Except State Instr :=
  match memRead s.mem s.params s.pc.toNat 2 with
  | .error bad => .error (takeFault .fetchRange 0 bad s)
  | .ok bytes =>
    match decode bytes with
    | .ok (i, _) => .ok i
    | .error e => .error (takeFault .unknownOpcode (decodeErrorWord e) 0 s)

/-! ### The random input (R19) -/

/-- `Rnd()`: the byte the host presents, or else the free value of this sample (D13; log 9). -/
def State.randomByte (s : State) : Byte := s.rnd.getD (Config.freeByte s.draws)

/-- The sample is taken: what the host presented is used up, and the next sample has another free value (log 9). -/
def State.consumeRandom (s : State) : State := { s with rnd := none, draws := s.draws + 1 }

end Sys2Proof.Machine
end

