-- ==== Sys2Proof/Machine/ControlFlow.lean ====
section
/-! DEFINITION. The control-flow instructions (`41_control_flow.md`). -/

namespace Sys2Proof.Machine

/-- 00EE RET (R100): the popped address, no +2; an empty stack faults (R202). -/
def execRet (s : State) : Result :=
  match pop s.stack with
  | none => .next (takeFault .stackUnderflow (encode .ret) 0 s)
  | some (t, rest) => .next ({ s with stack := rest }.jumpTo t)

/-- 1nnn JP (R101). -/
def execJp (nnn : Addr12) (s : State) : Result := .next (s.jumpTo (zextAddr nnn))

/-- 2nnn CALL (R102): `pc + 2` is pushed; a full stack faults (R203). -/
def execCall (nnn : Addr12) (s : State) : Result :=
  match push s.params.stackDepth (s.pc + 2) s.stack with
  | none => .next (takeFault .stackOverflow (encode (.call nnn)) 0 s)
  | some stack => .next ({ s with stack := stack }.jumpTo (zextAddr nnn))

/-- 3xnn SE Vx, nn (R103). -/
def execSeImm (x : Nibble) (nn : Byte) (s : State) : Result := .next (s.skipIf (s.readV x == nn))

/-- 4xnn SNE Vx, nn (R104). -/
def execSneImm (x : Nibble) (nn : Byte) (s : State) : Result := .next (s.skipIf (s.readV x != nn))

/-- 5xy0 SE Vx, Vy (R105). -/
def execSeReg (x y : Nibble) (s : State) : Result := .next (s.skipIf (s.readV x == s.readV y))

/-- 9xy0 SNE Vx, Vy (R106). -/
def execSneReg (x y : Nibble) (s : State) : Result := .next (s.skipIf (s.readV x != s.readV y))

end Sys2Proof.Machine
end

