-- ==== Sys2Proof/Machine/Display.lean ====
section
/-! DEFINITION. The display buffer and the XOR sprite-draw engine (`43_display.md` R140, R141, R143, R146, R147). -/

namespace Sys2Proof.Machine

/-- `disp[row][col]` (R140). -/
def Display.pixel (d : Display) (row : Fin 32) (col : Fin 64) : Bool := d[row.val][col.val]

/-- `disp[row][col] <- disp[row][col] ^ 1` (R141). -/
def Display.toggle (d : Display) (row : Fin 32) (col : Fin 64) : Display :=
  d.set row.val (d[row.val].set col.val (!d.pixel row col))

/-- `DispClear()`: every pixel off (R142). -/
def Display.clear : Display := Vector.replicate 32 (Vector.replicate 64 false)

/-- The bits of a sprite row, most significant first: bit index `k` is `b[7 - k]` (R141). -/
def spriteBits (b : Byte) : List Bool := [7, 6, 5, 4, 3, 2, 1, 0].map fun j => b.getLsbD j

/-- The loop of `DrawByte` (R141) from column `c` on: a 1 bit meets a lit pixel: collision; a 1 bit toggles its pixel; a 0
bit does nothing. Columns wrap modulo 64, per bit. -/
def drawBits (row : Fin 32) : List Bool → Nat → Display × Bool → Display × Bool
  | [], _, acc => acc
  | bit :: bits, c, (d, hit) =>
    let col := Fin.ofNat 64 c
    drawBits row bits (c + 1) (if bit then (d.toggle row col, hit || d.pixel row col) else (d, hit))

/-- `DrawByte(b, col0, row)`: the display after it, and whether there was a collision (R141). Rows wrap modulo 32. -/
def drawByte (b : Byte) (col0 row : Nat) (d : Display) : Display × Bool :=
  drawBits (Fin.ofNat 32 row) (spriteBits b) col0 (d, false)

/-- The row loop of Dxyn (R143) from display row `row` on: one row wrap per sprite row, the collisions joined. -/
def drawRows (col0 : Nat) : List Byte → Nat → Display × Bool → Display × Bool
  | [], _, acc => acc
  | b :: rows, row, (d, hit) =>
    let (d', hit') := drawByte b col0 (row % 32) d
    drawRows col0 rows (row + 1) (d', hit || hit')

/-- The whole sprite at (`cx`, `cy`), the coordinates as held in registers (R143). -/
def drawSprite (cx cy : Byte) (rows : List Byte) (d : Display) : Display × Bool :=
  drawRows cx.toNat rows cy.toNat (d, false)

/-- `presentScreen`: one `frame_ready` pulse (R4, R146; log 13). -/
def State.pulseFrame (s : State) : State := { s with frames := s.frames + 1 }

/-- `readBuffer()`: the 2048 pixels in row-major order, pixel (`col`, `row`) at index `row * 64 + col`; the port `fb`
(R140, R147). -/
def State.readBuffer (s : State) : List Bool := (s.disp.toList.map Vector.toList).flatten

end Sys2Proof.Machine
end

