-- ==== Sys2Proof/Machine/Flags.lean ====
section
/-! DEFINITION. What the four flag-writing instructions put in VF (`42_load_alu.md` R125 to R127, R130, `43_display.md`
R143). -/

namespace Sys2Proof.Machine

/-- `bool01(c)`: 1 when `c` holds and 0 otherwise (R8). -/
def bool01 (c : Bool) : Byte := if c then 1 else 0

/-- VF after 8xy4: 1 on carry; without carry 0 under `clear`, the old VF under `keep` (R125). -/
def addFlag (policy : Config.AddVfPolicy) (a b oldVf : Byte) : Byte :=
  if a.toNat + b.toNat > 255 then 1
  else match policy with
    | .clear => 0
    | .keep => oldVf

/-- VF after 8xy5: 1 when the exact difference is not negative, that is when there is no borrow (R126, D3). -/
def noBorrowFlag (a b : Byte) : Byte := bool01 (decide (b.toNat ≤ a.toNat))

/-- VF after 8xy6: the bit shifted out (R127). -/
def shiftedOutFlag (b : Byte) : Byte := b &&& 1

end Sys2Proof.Machine
end

