-- ==== Sys2Proof/Machine/DisplayInstrs.lean ====
section
/-! DEFINITION. The display instructions (`43_display.md`). -/

namespace Sys2Proof.Machine

/-- 00E0 CLS (R142), with its `frame_ready` pulse (R146). -/
def execCls (s : State) : Result := .next ({ s with disp := Display.clear }.pulseFrame).advance

/-- Dxyn DRW Vx, Vy, n (R143): the `n` sprite bytes are read first, all of them in range or a fault (R205); the coordinates
are the registers' old values; VF takes the collision flag every time; `frame_ready` pulses (R146). -/
def execDrw (x y n : Nibble) (s : State) : Result :=
  let cx := s.readV x
  let cy := s.readV y
  match memRead s.mem s.params s.i.toNat n.toNat with
  | .error bad => .next (takeFault .dataRange (encode (.drw x y n)) bad s)
  | .ok rows =>
    let (d, hit) := drawSprite cx cy rows s.disp
    .next ({ s with disp := d }.writeV vf (bool01 hit)).pulseFrame.advance

end Sys2Proof.Machine
end

