-- ==== Sys2Proof/Machine/IndexMemory.lean ====
section
/-! DEFINITION. The index-register and memory instructions (`45_index_memory.md`). -/

namespace Sys2Proof.Machine

/-- Annn LD I, nnn (R180). -/
def execLdI (nnn : Addr12) (s : State) : Result := .next { s with i := zextAddr nnn }.advance

/-- Fx1E ADD I, Vx (R181): modulo 65536, no flag, no range check. -/
def execAddI (x : Nibble) (s : State) : Result := .next { s with i := s.i + zextByte (s.readV x) }.advance

/-- Fx29 LD F, Vx (R182): the whole register times 5. -/
def execLdF (x : Nibble) (s : State) : Result := .next { s with i := zextByte (s.readV x) * 5 }.advance

/-- Fx33 LD B, Vx (R183): hundreds, tens, ones at `I`, `I+1`, `I+2`. -/
def execLdB (x : Nibble) (s : State) : Result :=
  match memWrite s.mem s.params s.i.toNat (bcdDigits (s.readV x)) with
  | .error bad => .next (takeFault .dataRange (encode (.ldB x)) bad s)
  | .ok m => .next { s with mem := m }.advance

/-- Fx55 LD [I], Vx (R184): `V[0]..V[x]` at `I`, `I+1`, ...; then `I <- I + x + 1`. -/
def execStRegs (x : Nibble) (s : State) : Result :=
  match memWrite s.mem s.params s.i.toNat (s.readBlock x) with
  | .error bad => .next (takeFault .dataRange (encode (.stRegs x)) bad s)
  | .ok m => .next { s with mem := m, i := s.i + (x.setWidth 16 + 1) }.advance

/-- Fx65 LD Vx, [I] (R185): `V[0]..V[x]` from `I`, `I+1`, ...; `I` stays. -/
def execLdRegs (x : Nibble) (s : State) : Result :=
  match memRead s.mem s.params s.i.toNat (x.toNat + 1) with
  | .error bad => .next (takeFault .dataRange (encode (.ldRegs x)) bad s)
  | .ok bytes => .next (s.writeBlock bytes).advance

end Sys2Proof.Machine
end

