-- ==== Sys2Proof/Machine/KeypadTimer.lean ====
section
/-! DEFINITION. The keypad and timer instructions (`44_keypad_timer.md`). -/

namespace Sys2Proof.Machine

/-- Ex9E SKP Vx (R161). -/
def execSkp (x : Nibble) (s : State) : Result := .next (s.skipIf (s.keyIs (s.readV x)))

/-- ExA1 SKNP Vx (R162). -/
def execSknp (x : Nibble) (s : State) : Result := .next (s.skipIf (!s.keyIs (s.readV x)))

/-- Fx0A LD Vx, K (R163): with no key the step changes nothing, `pc` included. -/
def execLdVxK (x : Nibble) (s : State) : Result :=
  match s.key with
  | none => .next s
  | some k => .next (s.writeV x (zextKey k)).advance

/-- Fx07 LD Vx, DT (R164). -/
def execLdVxDt (x : Nibble) (s : State) : Result := .next (s.writeV x s.dt).advance

/-- Fx15 LD DT, Vx (R165). -/
def execLdDtVx (x : Nibble) (s : State) : Result := .next { s with dt := s.readV x }.advance

/-- Fx18 LD ST, Vx (R166): there is no sound timer, so nothing changes but `pc`, whatever `x` is (D20; log 21). -/
def execLdStVx (_x : Nibble) (s : State) : Result := .next s.advance

end Sys2Proof.Machine
end

