-- ==== Sys2Proof/Machine/LoadAlu.lean ====
section
/-! DEFINITION. The register load and ALU instructions (`42_load_alu.md`). All advance `pc` by 2 and none can fault.
Operands are read from the state before any write, and the writes stand in the order of the rule (R84, D4; log 16). -/

namespace Sys2Proof.Machine

/-- 6xnn LD Vx, nn (R120). -/
def execLdImm (x : Nibble) (nn : Byte) (s : State) : Result := .next (s.writeV x nn).advance

/-- 7xnn ADD Vx, nn (R121): modulo 256, no flag. -/
def execAddImm (x : Nibble) (nn : Byte) (s : State) : Result := .next (s.writeV x (s.readV x + nn)).advance

/-- 8xy0 LD Vx, Vy (R122). -/
def execLdReg (x y : Nibble) (s : State) : Result := .next (s.writeV x (s.readV y)).advance

/-- 8xy2 AND Vx, Vy (R123). -/
def execAndReg (x y : Nibble) (s : State) : Result := .next (s.writeV x (s.readV x &&& s.readV y)).advance

/-- 8xy3 XOR Vx, Vy (R124). -/
def execXorReg (x y : Nibble) (s : State) : Result := .next (s.writeV x (s.readV x ^^^ s.readV y)).advance

/-- 8xy4 ADD Vx, Vy (R125): the sum, then the flag. The VF that `keep` leaves as it was is the one after the sum is
written. -/
def execAddReg (x y : Nibble) (s : State) : Result :=
  let a := s.readV x
  let b := s.readV y
  let t := s.writeV x (a + b)
  .next (t.writeV vf (addFlag s.params.addVfNoCarry a b (t.readV vf))).advance

/-- 8xy5 SUB Vx, Vy (R126): the difference modulo 256, then the flag. -/
def execSub (x y : Nibble) (s : State) : Result :=
  let a := s.readV x
  let b := s.readV y
  .next ((s.writeV x (a - b)).writeV vf (noBorrowFlag a b)).advance

/-- 8xy6 SHR Vx, Vy (R127): the flag, then `V[y]`, then `V[x]`; the operand is the old `V[y]`. -/
def execShr (x y : Nibble) (s : State) : Result :=
  let b := s.readV y
  .next (((s.writeV vf (shiftedOutFlag b)).writeV y (b >>> 1)).writeV x (b >>> 1)).advance

/-- Cxnn RND Vx, nn (R128): one sample per execution. -/
def execRnd (x : Nibble) (nn : Byte) (s : State) : Result :=
  .next ((s.consumeRandom).writeV x (s.randomByte &&& nn)).advance

end Sys2Proof.Machine
end

