-- ==== Sys2Proof/Machine/HostActions.lean ====
section
/-! DEFINITION. What the host does between steps (`00_scope.md` R6, `40_step_cycle.md` R87): ticks (`60_exceptions.md`
R213), the key state (R18), the random byte (R19), reset and the placing of the ROM image (`70_reset_and_hazards.md` R230
to R232). -/

namespace Sys2Proof.Machine

/-- `Tick()`: the delay timer counts down and stops at 0 (R213, D12; log 19). -/
def tickDown (dt : Byte) : Byte := if dt = 0 then 0 else dt - 1

/-- Reset memory overlaid with the ROM image, byte `k` at 0x200 + `k` (R232). An image too long to be placed is the host's
to reject: memory is then the reset memory (log 11). -/
def bootMemory (p : Config.Params) (image : List Byte) : Memory :=
  if imageFits image then Memory.writeBytes [] p Config.progBase image else []

/-- A machine with the parameters `p` after reset with an image placed, before the first step (R231, R232). -/
def State.boot (p : Config.Params) (image : List Byte) : State :=
  { State.resetWith p with mem := bootMemory p image }

/-- One host action. A reset gives every piece of the machine's state its reset value, wherever it finds the machine
(R230), under the parameters it has; the schedule and the count of samples are not the machine's and stay (log 11). -/
def State.hostAction (s : State) : HostAction → State
  | .tick => { s with dt := tickDown s.dt }
  | .setKey k => { s with key := k }
  | .supplyRandom b => { s with rnd := some b }
  | .reset image => { State.boot s.params image with draws := s.draws, host := s.host }

/-- The actions of one batch, in order. -/
def State.hostActions (s : State) : List HostAction → State
  | [] => s
  | a :: batch => (s.hostAction a).hostActions batch

/-- The machine as the next step finds it: the next batch of the schedule has been performed. With nothing scheduled the
host does nothing (R6, R87; log 10). -/
def State.afterHost (s : State) : State :=
  match s.host with
  | [] => s
  | batch :: later => { s with host := later }.hostActions batch

end Sys2Proof.Machine
end

