-- ==== Sys2Proof/Machine/Step.lean ====
section
/-! DEFINITION. The step (`40_step_cycle.md` R80): what the host scheduled before it (R87), then, unless the machine is
halted (R86), one fetch, decode and execute. -/

namespace Sys2Proof.Machine

/-- One step. A fault of the machine is a next state with `halted` set and the record written (R207); a halted machine has
no next state (R86; log 1). -/
def step (s : State) : Host.Outcome State Fault Refusal :=
  let t := s.afterHost
  if t.halted then .fault (.halted t.fault.cause)
  else
    match fetchDecode t with
    | .ok i => exec i t
    | .error u => .next u

/-- `s` with the instruction word `w` of a table row stored where the next step fetches, high byte first (R45). What else
the fetch needs: the machine running, nothing scheduled before the step, and a `pc` that both bytes of a word fit at; a
`pc` above 0x0FFE is put at 0x0200 (log 12). -/
def State.withFetchWord (s : State) (nbits w : Nat) : State :=
  let pc : Word := if s.pc.toNat ≤ 0xFFE then s.pc else 0x0200
  let word : Word := BitVec.ofNat 16 (w % 2 ^ nbits)
  { s with
    pc := pc
    halted := false
    host := []
    mem := s.mem.writeBytes s.params pc.toNat [highByte word, lowByte word] }

end Sys2Proof.Machine
end

