-- ==== Sys2Proof/Safety.lean ====
section
/-! DEFINITION. The terms claims use: what is left untouched, what a sprite covers, what a safe run is, and the invariant
of every reachable state. -/

namespace Sys2Proof.Machine

/-! ### Frames -/

/-- The parts of the state apart from the general registers and `pc`. -/
inductive Part where
  /-- The index register `I`. -/
  | index
  /-- The call stack, entries and depth. -/
  | stack
  /-- Every byte of memory, as reading it gives it. -/
  | memory
  /-- The display buffer. -/
  | display
  /-- The delay timer. -/
  | timer
  /-- `halted` and the fault record. -/
  | faults
  /-- The key state. -/
  | keypad
  /-- The random input and the count of samples. -/
  | random
  /-- The count of `frame_ready` pulses. -/
  | frames
  /-- The host's schedule. -/
  | schedule
  deriving DecidableEq, Repr

/-- Every part not named in `but` is in `t` as it is in `s`; the parameters always are. -/
structure Untouched (but : List Part) (s t : State) : Prop where
  index : .index ∉ but → t.i = s.i
  stack : .stack ∉ but → t.stack = s.stack
  memory : .memory ∉ but → ∀ a, t.readByte a = s.readByte a
  display : .display ∉ but → t.disp = s.disp
  timer : .timer ∉ but → t.dt = s.dt
  faults : .faults ∉ but → t.halted = s.halted ∧ t.fault = s.fault
  keypad : .keypad ∉ but → t.key = s.key
  random : .random ∉ but → t.rnd = s.rnd ∧ t.draws = s.draws
  frames : .frames ∉ but → t.frames = s.frames
  schedule : .schedule ∉ but → t.host = s.host
  params : t.params = s.params

/-- Every general register not named in `but` is in `t` as it is in `s`. -/
def RegsKept (but : List Nibble) (s t : State) : Prop := ∀ r, r ∉ but → t.readV r = s.readV r

/-- The general registers an instruction may write (`41_control_flow.md` to `45_index_memory.md`, "Operands" and "Flags"):
its named destinations, VF for the four that write it as a flag (R130), `V[0]..V[x]` for Fx65. -/
def destRegs : Instr → List Nibble
  | .cls | .ret | .jp _ | .call _ => []
  | .seImm _ _ | .sneImm _ _ | .seReg _ _ | .sneReg _ _ => []
  | .ldImm x _ | .addImm x _ | .rnd x _ => [x]
  | .ldReg x _ | .andReg x _ | .xorReg x _ => [x]
  | .addReg x _ | .sub x _ => [x, vf]
  | .shr x y => [x, y, vf]
  | .drw _ _ _ => [vf]
  | .skp _ | .sknp _ => []
  | .ldVxDt x | .ldVxK x => [x]
  | .ldDtVx _ | .ldStVx _ => []
  | .ldI _ | .addI _ | .ldF _ | .ldB _ | .stRegs _ => []
  | .ldRegs x => (List.range (x.toNat + 1)).map (BitVec.ofNat 4)

/-- The other parts of the state an instruction may change when it completes. -/
def destParts : Instr → List Part
  | .cls | .drw _ _ _ => [.display, .frames]
  | .ret | .call _ => [.stack]
  | .jp _ | .seImm _ _ | .sneImm _ _ | .seReg _ _ | .sneReg _ _ => []
  | .ldImm _ _ | .addImm _ _ | .ldReg _ _ | .andReg _ _ | .xorReg _ _ => []
  | .addReg _ _ | .sub _ _ | .shr _ _ => []
  | .rnd _ _ => [.random]
  | .skp _ | .sknp _ | .ldVxDt _ | .ldVxK _ | .ldStVx _ => []
  | .ldDtVx _ => [.timer]
  | .ldI _ | .addI _ | .ldF _ => [.index]
  | .ldB _ => [.memory]
  | .stRegs _ => [.memory, .index]
  | .ldRegs _ => []

/-! ### Memory accesses -/

/-- The `n` bytes from address `a` up all exist (R41, R48). -/
def InRange (a n : Nat) : Prop := n = 0 ∨ a + n ≤ Config.memSize

/-- Every byte outside the `n` bytes from address `a` up reads in `t` as it does in `s`. -/
def KeptOutside (a n : Nat) (s t : State) : Prop := ∀ b, b < a ∨ a + n ≤ b → t.readByte b = s.readByte b

/-! ### Sprites (`43_display.md` R141, R143) -/

/-- A 1 bit of the `n`-row sprite at `I`, drawn at (`V[x]`, `V[y]`), targets the pixel (`row`, `col`): bit `k` of sprite row
`j`, most significant first, lands at row `(V[y] + j) mod 32`, column `(V[x] + k) mod 64`. -/
def SpriteCovers (s : State) (x y n : Nibble) (row : Fin 32) (col : Fin 64) : Prop :=
  ∃ j k, j < n.toNat ∧ k < 8 ∧ ((s.readV y).toNat + j) % 32 = row.val ∧ ((s.readV x).toNat + k) % 64 = col.val ∧
    (s.readByte (s.i.toNat + j)).getLsbD (7 - k) = true

/-- Some pixel a 1 bit of the sprite targets is on before the draw (R141: a collision). -/
def SpriteCollides (s : State) (x y n : Nibble) : Prop :=
  ∃ row col, SpriteCovers s x y n row col ∧ s.disp.pixel row col = true

/-! ### Safe runs and the invariant -/

/-- A safe run of `k` steps: it ends in a state that has not halted (`60_exceptions.md` R207: a halted state is never a
successful end). -/
def SafeRun (k : Nat) (s : State) : Prop := ∃ t, Sys2Proof.core.run k s = .next t ∧ t.halted = false

/-- The word at the program counter, high byte first (R45, R81). -/
def State.wordAtPc (s : State) : Word := s.readByte s.pc.toNat ++ s.readByte (s.pc.toNat + 1)

/-- The first address above 0xFFF of an access from `a` up that leaves the range (R41, R205). -/
def firstAbove (a : Nat) : Nat := if a > 0xFFF then a else 0x1000

/-- The call stack holds at most STACK_DEPTH entries, each an address a 2nnn pushed (R14, R89, R100). -/
def StackInv (s : State) : Prop := s.stack.length ≤ s.params.stackDepth ∧ ∀ r ∈ s.stack, r.toNat ≤ 0x1000

/-- What the record of a halted machine says of the state it left, cause by cause (R200 to R205). -/
def RecordMatches (s : State) : Prop :=
  match s.fault.cause with
  | .none => False
  | .unknownOpcode => s.fault.word = s.wordAtPc ∧ decodeWord s.fault.word = none ∧ s.fault.addr = 0
  | .stackUnderflow => s.fault.word = 0x00EE ∧ s.stack = [] ∧ s.fault.addr = 0
  | .stackOverflow => fieldOp s.fault.word = 2 ∧ s.stack.length = s.params.stackDepth ∧ s.fault.addr = 0
  | .fetchRange => s.fault.word = 0 ∧ s.pc.toNat > 0xFFE ∧ s.fault.addr.toNat = firstAbove s.pc.toNat
  | .dataRange => s.fault.word = s.wordAtPc ∧ s.fault.addr.toNat = firstAbove s.i.toNat

/-- The fault state: a running machine has a clear record; a halted one has a record that addresses the instruction at
`pc` and matches the state (R20, R200, R207). -/
def FaultInv (s : State) : Prop :=
  (s.halted = false → s.fault = FaultRecord.clear) ∧
  (s.halted = true → s.fault.pc = s.pc ∧ RecordMatches s)

/-- The invariant of every state a run can reach: legal parameters, memory in canonical form, the stack bounded and its
entries in range, `pc` at most 0x1002 (R89), the fault state as the record's rules say. -/
structure MachineInv (s : State) : Prop where
  params : s.params.wf
  memory : s.mem.wf s.params
  stack : StackInv s
  pc : s.pc.toNat ≤ 0x1002
  fault : FaultInv s

end Sys2Proof.Machine
end

