-- ==== Sys2Proof/Certificates/Slice0/Obligations.lean ====
section
/-! DEFINITION. The statements for the provers. Each docstring names the rule of spec/ it formalises, or the section and
the spec's decision (D<n>) or the model's log entry it rests on. -/

open Sys2Proof Sys2Proof.Machine

/-! ### Encoding (`30_encoding.md`) -/

/-- Words written out from the `encoding` column of spec/opcode_table.json, at least one of each family, decode to the
instructions they stand for, high byte first; an illegal word and a lone byte are rejected by name. -/
def Obligations.WrittenWordsDecode : Prop :=
  decode [0x00, 0xE0] = .ok (.cls, []) ∧
  decode [0x22, 0x10] = .ok (.call 0x210, []) ∧
  decode [0x31, 0xFF] = .ok (.seImm 1 0xFF, []) ∧
  decode [0x9A, 0xB0] = .ok (.sneReg 0xA 0xB, []) ∧
  decode [0x7C, 0x5D] = .ok (.addImm 0xC 0x5D, []) ∧
  decode [0x8E, 0xF6] = .ok (.shr 0xE 0xF, []) ∧
  decode [0xC3, 0x0F] = .ok (.rnd 3 0x0F, []) ∧
  decode [0xD1, 0x2F] = .ok (.drw 1 2 0xF, []) ∧
  decode [0xE4, 0xA1] = .ok (.sknp 4, []) ∧
  decode [0xF3, 0x0A] = .ok (.ldVxK 3, []) ∧
  decode [0xAB, 0xCD, 0x12] = .ok (.ldI 0xBCD, [0x12]) ∧
  decode [0xF2, 0x55] = .ok (.stRegs 2, []) ∧
  decode [0x81, 0x21] = .error (.unknownOpcode 0x8121) ∧
  decode [0x00] = .error .truncated

/-- Decode and encode agree: the bytes of any instruction, whatever follows them, decode to that instruction, with every
operand at every value its field admits (R60, R61, R63, R64). -/
def Obligations.DecodeOfEncodeIsTheInstruction : Prop :=
  ∀ (i : Instr) (rest : List Byte), decode (encodeBytes i ++ rest) = .ok (i, rest)

/-- Each word has one meaning: bytes that decode to an instruction are that instruction's encoding and what follows (R64,
R66). -/
def Obligations.EncodeOfDecodeIsTheBytes : Prop :=
  ∀ (bytes rest : List Byte) (i : Instr), decode bytes = .ok (i, rest) → bytes = encodeBytes i ++ rest

/-- R64: a word selects a row of the opcode map when `w & mask = match`; the decoder gives that row's instruction, and no
other row's. -/
def Obligations.WordSelectsItsRow : Prop :=
  ∀ (w : Word) (row : OpcodeRow), row ∈ opcodeTable →
    (w &&& row.mask = row.value ↔ ∃ i, decodeWord w = some i ∧ i.mnemonic = row.mnemonic)

/-- The opcode map has 30 rows and no two overlap (R64, derived there). -/
def Obligations.OpcodeRowsDoNotOverlap : Prop :=
  opcodeTable.length = 30 ∧
  opcodeTable.Pairwise fun a b => ∀ w : Word, ¬(w &&& a.mask = a.value ∧ w &&& b.mask = b.value)

/-- The illegal words are exactly those of the family table of R65 (family 0 compared whole by the spec's decision D17). -/
def Obligations.IllegalWordsByFamily : Prop :=
  ∀ w : Word, decodeWord w = none ↔
    (w.toNat / 4096 = 0x0 ∧ w.toNat ≠ 0x00E0 ∧ w.toNat ≠ 0x00EE) ∨
    (w.toNat / 4096 = 0x5 ∧ w.toNat % 16 ≠ 0) ∨
    (w.toNat / 4096 = 0x8 ∧ w.toNat % 16 ∉ [0x0, 0x2, 0x3, 0x4, 0x5, 0x6]) ∨
    (w.toNat / 4096 = 0x9 ∧ w.toNat % 16 ≠ 0) ∨
    w.toNat / 4096 = 0xB ∨
    (w.toNat / 4096 = 0xE ∧ w.toNat % 256 ∉ [0x9E, 0xA1]) ∨
    (w.toNat / 4096 = 0xF ∧ w.toNat % 256 ∉ [0x07, 0x0A, 0x15, 0x18, 0x1E, 0x29, 0x33, 0x55, 0x65])

/-! ### The step (`40_step_cycle.md`) and the faults (`60_exceptions.md`) -/

/-- A step runs the decoded instruction: after the host's scheduled actions, a running machine whose two bytes at `pc` decode
to `i` does exactly what `exec i` does (R80 to R83). The scheduled actions are those of the first batch, all of them, in their
order, and the later batches stay scheduled (R6, R87; the schedule is the model's, log 10). -/
def Obligations.StepRunsDecodedInstruction : Prop :=
  (∀ (s : State) (i : Instr), s.afterHost.halted = false → s.afterHost.pc.toNat ≤ 0xFFE →
    decode [s.afterHost.readByte s.afterHost.pc.toNat, s.afterHost.readByte (s.afterHost.pc.toNat + 1)] = .ok (i, []) →
    step s = exec i s.afterHost) ∧
  (∀ s : State, s.host = [] → s.afterHost = s) ∧
  (∀ (s : State) (batch : List HostAction) (later : List (List HostAction)), s.host = batch :: later →
    s.afterHost = { s with host := later }.hostActions batch) ∧
  (∀ s : State, s.hostActions [] = s) ∧
  (∀ (s : State) (a : HostAction) (batch : List HostAction),
    s.hostActions (a :: batch) = (s.hostAction a).hostActions batch)

/-- The word of an instruction placed where the next step fetches is what that step runs, from every state (log 12). -/
def Obligations.PlacedInstructionRuns : Prop :=
  ∀ (s : State) (i : Instr),
    step (s.withFetchWord 16 (encode i).toNat) = exec i (s.withFetchWord 16 (encode i).toNat)

/-- A fetch above 0x0FFE faults and changes nothing but `halted` and the record: cause 4, the word 0, the first address
above 0xFFF (R81, R204; the spec's decisions D5, D18). -/
def Obligations.FetchOutOfRangeFaults : Prop :=
  ∀ s : State, s.afterHost.halted = false → s.afterHost.pc.toNat > 0xFFE →
    step s = .next { s.afterHost with
      halted := true
      fault := ⟨.fetchRange, s.afterHost.pc, 0, if s.afterHost.pc = 0x0FFF then 0x1000 else s.afterHost.pc⟩ }

/-- A word that is no instruction faults and changes nothing but `halted` and the record, which holds its address and the
word (R201; where they are kept is the spec's decision D18). -/
def Obligations.UnknownOpcodeFaults : Prop :=
  ∀ s : State, s.afterHost.halted = false → s.afterHost.pc.toNat ≤ 0xFFE → decodeWord s.afterHost.wordAtPc = none →
    step s = .next { s.afterHost with
      halted := true
      fault := ⟨.unknownOpcode, s.afterHost.pc, s.afterHost.wordAtPc, 0⟩ }

/-- A step answers a next state unless the machine is halted, whatever the state: no instruction is refused, and a halted
machine, which takes no step (R86, D19), is the only stop (log 1). -/
def Obligations.StepAnswersUnlessHalted : Prop :=
  ∀ s : State,
    (s.afterHost.halted = false → ∃ t, step s = .next t) ∧
    (s.afterHost.halted = true → step s = .fault (.halted s.afterHost.fault.cause))

/-- Faults are precise (R85, R207; the spec's decision D6): a step that halts changes `halted` and the record and nothing
else, and the record's `pc` is the address of the faulting instruction. -/
def Obligations.FaultsArePrecise : Prop :=
  ∀ s t : State, s.afterHost.halted = false → step s = .next t → t.halted = true →
    t = { s.afterHost with halted := true, fault := t.fault } ∧
    t.fault.pc = s.afterHost.pc ∧ t.fault.cause ≠ .none

/-- The fault reported is the first that holds, in the order fetch, decode, execute (R208, derived there). -/
def Obligations.FirstFaultIsReported : Prop :=
  ∀ s t : State, s.afterHost.halted = false → step s = .next t → t.halted = true →
    (t.fault.cause = .fetchRange ↔ s.afterHost.pc.toNat > 0xFFE) ∧
    (t.fault.cause = .unknownOpcode ↔ s.afterHost.pc.toNat ≤ 0xFFE ∧ decodeWord s.afterHost.wordAtPc = none) ∧
    (t.fault.cause = .stackUnderflow ↔
      s.afterHost.pc.toNat ≤ 0xFFE ∧ decodeWord s.afterHost.wordAtPc = some .ret) ∧
    (t.fault.cause = .stackOverflow ↔
      s.afterHost.pc.toNat ≤ 0xFFE ∧ ∃ nnn, decodeWord s.afterHost.wordAtPc = some (.call nnn)) ∧
    (t.fault.cause = .dataRange ↔
      s.afterHost.pc.toNat ≤ 0xFFE ∧ ∃ x y n, decodeWord s.afterHost.wordAtPc = some (.drw x y n) ∨
        decodeWord s.afterHost.wordAtPc = some (.ldB x) ∨ decodeWord s.afterHost.wordAtPc = some (.stRegs x) ∨
        decodeWord s.afterHost.wordAtPc = some (.ldRegs x))

/-- A halted machine stays halted until reset (R86, R207, R210; the spec's decision D19): whatever else the host does before
a step, without a reset among it the step is the model's stop (log 1), with the recorded cause. -/
def Obligations.HaltedMachineTakesNoStep : Prop :=
  ∀ s : State, s.halted = true →
    (∀ batch, s.host.head? = some batch → ∀ image, HostAction.reset image ∉ batch) →
    step s = .fault (.halted s.fault.cause)

/-- The invariant is kept by every step, from every state that meets it: legal parameters, memory in canonical form, at
most STACK_DEPTH return addresses and none above 0x1000, `pc` at most 0x1002 (R89), the fault record clear while running and
matching the state while halted (R20, R200, R207). -/
def Obligations.StepKeepsMachineInvariant : Prop :=
  ∀ s t : State, MachineInv s → step s = .next t → MachineInv t

/-- The machine right after reset meets the invariant, with the parameters of this hardware and with any legal ones (R7,
log 23). -/
def Obligations.ResetMeetsMachineInvariant : Prop :=
  MachineInv State.reset ∧ ∀ p : Config.Params, p.wf = true → MachineInv (State.resetWith p)

/-- The invariant along a run: whatever number of steps a run takes from a state that meets it, with whatever host actions
are scheduled between them, the state it answers meets it; a safe run ends with a clear fault record. -/
def Obligations.RunKeepsMachineInvariant : Prop :=
  ∀ (k : Nat) (s : State), MachineInv s →
    (∀ t, Sys2Proof.core.run k s = .next t → MachineInv t) ∧
    (SafeRun k s → ∃ t, Sys2Proof.core.run k s = .next t ∧ t.fault = FaultRecord.clear ∧ t.pc.toNat ≤ 0x1002)

/-- The two idle loops (R88, R163, R218; the first is the spec's convention D26): a jump to its own address, and a key wait
with no key, change no state at all for as long as the host only requests steps. -/
def Obligations.IdleLoopsChangeNothing : Prop :=
  ∀ (k : Nat) (s : State), s.host = [] → s.halted = false → s.pc.toNat ≤ 0xFFE →
    ((∃ nnn, decodeWord s.wordAtPc = some (.jp nnn) ∧ nnn.toNat = s.pc.toNat) ∨
      (s.key = none ∧ ∃ x, decodeWord s.wordAtPc = some (.ldVxK x))) →
    Sys2Proof.core.run k s = .next s

/-! ### Rules of the whole machine -/

/-- R83: an instruction that completes writes `pc` in exactly one of four ways, by its class; a fault does not write `pc`. -/
def Obligations.PcMovesInFourWays : Prop :=
  ∀ (i : Instr) (s t : State), s.halted = false → exec i s = .next t →
    (t.halted = true → t.pc = s.pc) ∧
    (t.halted = false →
      match i with
      | .jp nnn => t.pc = nnn.setWidth 16
      | .call nnn => t.pc = nnn.setWidth 16
      | .ret => s.stack.head? = some t.pc
      | .seImm x nn => t.pc = if s.readV x = nn then s.pc + 4 else s.pc + 2
      | .sneImm x nn => t.pc = if s.readV x ≠ nn then s.pc + 4 else s.pc + 2
      | .seReg x y => t.pc = if s.readV x = s.readV y then s.pc + 4 else s.pc + 2
      | .sneReg x y => t.pc = if s.readV x ≠ s.readV y then s.pc + 4 else s.pc + 2
      | .skp x => t.pc = if s.keyIs (s.readV x) then s.pc + 4 else s.pc + 2
      | .sknp x => t.pc = if s.keyIs (s.readV x) then s.pc + 2 else s.pc + 4
      | .ldVxK _ => t.pc = if s.key = none then s.pc else s.pc + 2
      | _ => t.pc = s.pc + 2)

/-- No instruction writes a general register other than its destinations; VF is a destination, unnamed, of 8xy4, 8xy5, 8xy6
and Dxyn only (R11, R130). -/
def Obligations.OnlyDestinationRegistersChange : Prop :=
  ∀ (i : Instr) (s t : State), exec i s = .next t → RegsKept (destRegs i) s t

/-- An instruction that completes changes no other part of the state than its own: the display only by 00E0 and Dxyn (R16),
memory only by Fx33 and Fx55 (R47), the stack only by 2nnn and 00EE (R14), the delay timer only by Fx15 (R17), `I` only by
Annn, Fx1E, Fx29 and Fx55 (R13), the key state by none (R160), the random input only by Cxnn (R19). -/
def Obligations.OnlyOwnPartsChange : Prop :=
  ∀ (i : Instr) (s t : State), s.halted = false → exec i s = .next t → t.halted = false → Untouched (destParts i) s t

/-- `frame_ready` is pulsed once by every 00E0 and Dxyn that completes and at no other time (R146, the spec's decision D21;
the count of pulses is the model's, log 13). -/
def Obligations.FramePulsesOnlyOnDisplayChange : Prop :=
  ∀ (i : Instr) (s t : State), s.halted = false → exec i s = .next t →
    t.frames = s.frames + (match i with
      | .cls => 1
      | .drw _ _ _ => if t.halted then 0 else 1
      | _ => 0)

/-! ### Control flow (`41_control_flow.md`) -/

/-- R101: `pc` takes the zero-extended address and nothing else changes. -/
def Obligations.JumpSetsPc : Prop :=
  ∀ (nnn : Addr12) (s : State), ∃ t, exec (.jp nnn) s = .next t ∧ t.pc.toNat = nnn.toNat ∧
    RegsKept [] s t ∧ Untouched [] s t

/-- R100: a return takes the newest entry off the stack into `pc`, as it is, no +2; on an empty stack it is a
StackUnderflowFault and `sp` and `pc` are unchanged. -/
def Obligations.ReturnPopsNewestEntry : Prop :=
  (∀ (s : State) (r : Word) (rest : List Word), s.stack = r :: rest →
    ∃ t, exec .ret s = .next t ∧ t.pc = r ∧ t.stack = rest ∧ RegsKept [] s t ∧ Untouched [.stack] s t) ∧
  (∀ s : State, s.stack = [] →
    ∃ t, exec .ret s = .next t ∧ t.halted = true ∧ t.fault.cause = .stackUnderflow ∧ t.stack = [] ∧ t.pc = s.pc)

/-- A call on a stack that is not full pushes `pc + 2` and jumps (R102), whatever STACK_DEPTH is (R7, the spec's decision D7;
log 2, log 23). -/
def Obligations.CallPushesReturnAddress : Prop :=
  ∀ (nnn : Addr12) (s : State), s.stack.length < s.params.stackDepth →
    ∃ t, exec (.call nnn) s = .next t ∧ t.stack = (s.pc + 2) :: s.stack ∧ t.pc.toNat = nnn.toNat ∧
      RegsKept [] s t ∧ Untouched [.stack] s t

/-- The two stack faults, exactly: nothing changes but `halted` and the record, which holds the cause, the address and the
word of the instruction (R202, R203; the spec's decisions D7, D18), whatever STACK_DEPTH is (R7, log 23). The codes of the six
causes, as the port `fault_cause` shows them (R200; D18, log 20). -/
def Obligations.StackFaultsAreRecorded : Prop :=
  (∀ s : State, s.stack = [] →
    exec .ret s = .next { s with halted := true, fault := ⟨.stackUnderflow, s.pc, 0x00EE, 0⟩ }) ∧
  (∀ (nnn : Addr12) (s : State), s.params.stackDepth ≤ s.stack.length →
    exec (.call nnn) s = .next { s with halted := true, fault := ⟨.stackOverflow, s.pc, 0x2#4 ++ nnn, 0⟩ }) ∧
  FaultCause.none.code = 0 ∧ FaultCause.unknownOpcode.code = 1 ∧ FaultCause.stackUnderflow.code = 2 ∧
  FaultCause.stackOverflow.code = 3 ∧ FaultCause.fetchRange.code = 4 ∧ FaultCause.dataRange.code = 5

/-- Call and return pair (R109, derived there): a return with the stack as a call left it resumes after the call and leaves
the deeper entries as they were. -/
def Obligations.ReturnResumesAfterCall : Prop :=
  ∀ (nnn : Addr12) (s t u : State), s.halted = false → exec (.call nnn) s = .next t → t.halted = false →
    u.stack = t.stack → ∃ w, exec .ret u = .next w ∧ w.pc = s.pc + 2 ∧ w.stack = s.stack

/-- R103, R104: the skips on a register and an immediate, complements of each other. -/
def Obligations.SkipsOnImmediate : Prop :=
  ∀ (x : Nibble) (nn : Byte) (s : State),
    (∃ t, exec (.seImm x nn) s = .next t ∧ (t.pc = if s.readV x = nn then s.pc + 4 else s.pc + 2) ∧
      RegsKept [] s t ∧ Untouched [] s t) ∧
    (∃ t, exec (.sneImm x nn) s = .next t ∧ (t.pc = if s.readV x = nn then s.pc + 2 else s.pc + 4) ∧
      RegsKept [] s t ∧ Untouched [] s t)

/-- R105, R106: the skips on two registers, complements of each other. -/
def Obligations.SkipsOnRegisters : Prop :=
  ∀ (x y : Nibble) (s : State),
    (∃ t, exec (.seReg x y) s = .next t ∧ (t.pc = if s.readV x = s.readV y then s.pc + 4 else s.pc + 2) ∧
      RegsKept [] s t ∧ Untouched [] s t) ∧
    (∃ t, exec (.sneReg x y) s = .next t ∧ (t.pc = if s.readV x = s.readV y then s.pc + 2 else s.pc + 4) ∧
      RegsKept [] s t ∧ Untouched [] s t)

/-! ### Load and ALU (`42_load_alu.md`) -/

/-- R120: the register takes the immediate as it is. -/
def Obligations.LoadImmediateSetsRegister : Prop :=
  ∀ (x : Nibble) (nn : Byte) (s : State), ∃ t, exec (.ldImm x nn) s = .next t ∧
    t.readV x = nn ∧ t.pc = s.pc + 2 ∧ RegsKept [x] s t ∧ Untouched [] s t

/-- R121: the sum modulo 256; VF is written only where it is the destination. -/
def Obligations.AddImmediateWrapsWithoutFlag : Prop :=
  ∀ (x : Nibble) (nn : Byte) (s : State), ∃ t, exec (.addImm x nn) s = .next t ∧
    (t.readV x).toNat = ((s.readV x).toNat + nn.toNat) % 256 ∧ t.pc = s.pc + 2 ∧ RegsKept [x] s t ∧ Untouched [] s t

/-- R122, R123, R124: move, AND and XOR into `V[x]`, bit by bit, with no flag. -/
def Obligations.MoveAndXorSetRegister : Prop :=
  ∀ (x y : Nibble) (s : State),
    (∃ t, exec (.ldReg x y) s = .next t ∧ t.readV x = s.readV y ∧
      t.pc = s.pc + 2 ∧ RegsKept [x] s t ∧ Untouched [] s t) ∧
    (∃ t, exec (.andReg x y) s = .next t ∧
      (∀ j, j < 8 → (t.readV x).getLsbD j = ((s.readV x).getLsbD j && (s.readV y).getLsbD j)) ∧
      t.pc = s.pc + 2 ∧ RegsKept [x] s t ∧ Untouched [] s t) ∧
    (∃ t, exec (.xorReg x y) s = .next t ∧
      (∀ j, j < 8 → (t.readV x).getLsbD j = ((s.readV x).getLsbD j != (s.readV y).getLsbD j)) ∧
      t.pc = s.pc + 2 ∧ RegsKept [x] s t ∧ Untouched [] s t)

/-- 8xy4 (R125): the sum modulo 256 into `V[x]`, then VF: 1 on carry; without carry 0, on every execution, under `clear`, the
value this hardware has (the spec's decision D2, log 3), and what it held under `keep` (log 23). With `x` = 15 the flag stays
and the sum is lost, but under `keep` without carry it is the sum that stays (decision D4). -/
def Obligations.AddSetsSumAndCarry : Prop :=
  ∀ (x y : Nibble) (s : State), ∃ t, exec (.addReg x y) s = .next t ∧
    (x ≠ vf → (t.readV x).toNat = ((s.readV x).toNat + (s.readV y).toNat) % 256) ∧
    (t.readV vf =
      if (s.readV x).toNat + (s.readV y).toNat > 255 then 1
      else match s.params.addVfNoCarry with
        | .clear => 0
        | .keep => if x = vf then s.readV x + s.readV y else s.readV vf) ∧
    t.pc = s.pc + 2 ∧ RegsKept [x, vf] s t ∧ Untouched [] s t

/-- 8xy5 (R126): the difference modulo 256 into `V[x]`, then VF 1 exactly when there is no borrow (the spec's decision D3);
with `x` = 15 the flag stays (decision D4). -/
def Obligations.SubSetsDifferenceAndNoBorrow : Prop :=
  ∀ (x y : Nibble) (s : State), ∃ t, exec (.sub x y) s = .next t ∧
    (x ≠ vf → ((t.readV x).toNat : Int) = ((s.readV x).toNat - (s.readV y).toNat : Int) % 256) ∧
    (t.readV vf = if (s.readV x).toNat < (s.readV y).toNat then 0 else 1) ∧
    t.pc = s.pc + 2 ∧ RegsKept [x, vf] s t ∧ Untouched [] s t

/-- R127: half of the old `V[y]` into both `V[y]` and `V[x]`, the bit shifted out into VF, which a result written to
`V[15]` replaces. -/
def Obligations.ShiftWritesBothRegisters : Prop :=
  ∀ (x y : Nibble) (s : State), ∃ t, exec (.shr x y) s = .next t ∧
    (t.readV x).toNat = (s.readV y).toNat / 2 ∧ (t.readV y).toNat = (s.readV y).toNat / 2 ∧
    (x ≠ vf → y ≠ vf → (t.readV vf).toNat = (s.readV y).toNat % 2) ∧
    t.pc = s.pc + 2 ∧ RegsKept [x, y, vf] s t ∧ Untouched [] s t

/-- Cxnn (R128): the sampled byte under the mask, whatever byte it is: the presented one where the host presents one, a free
value otherwise (the spec's decision D13, log 9). No bit outside the mask is set. -/
def Obligations.RandomIsMasked : Prop :=
  ∀ (x : Nibble) (nn : Byte) (s : State), ∃ t, exec (.rnd x nn) s = .next t ∧
    (∃ r : Byte, t.readV x = r &&& nn ∧ ∀ b, s.rnd = some b → r = b) ∧
    t.readV x &&& ~~~nn = 0 ∧ t.rnd = none ∧
    t.pc = s.pc + 2 ∧ RegsKept [x] s t ∧ Untouched [.random] s t

/-! ### Display (`43_display.md`) -/

/-- 00E0 (R142): every pixel off, no flag; `frame_ready` pulses (decision D21, counted by the model, log 13). -/
def Obligations.ClearTurnsEveryPixelOff : Prop :=
  ∀ s : State, ∃ t, exec .cls s = .next t ∧ (∀ row col, t.disp.pixel row col = false) ∧
    t.pc = s.pc + 2 ∧ RegsKept [] s t ∧ Untouched [.display, .frames] s t

/-- Dxyn (R143, R141) with its bytes in range, or with `n` = 0 whatever `I` is: exactly the pixels a 1 bit of the sprite
targets are toggled, both coordinates wrapping, and VF is 1 exactly when one of them was on; memory and `I` stay. That an
access out of range is the only hindrance is the spec's decision D5. -/
def Obligations.DrawTogglesCoveredPixels : Prop :=
  ∀ (x y n : Nibble) (s : State), InRange s.i.toNat n.toNat →
    ∃ t, exec (.drw x y n) s = .next t ∧
      (∀ row col, SpriteCovers s x y n row col → t.disp.pixel row col = !s.disp.pixel row col) ∧
      (∀ row col, ¬SpriteCovers s x y n row col → t.disp.pixel row col = s.disp.pixel row col) ∧
      (SpriteCollides s x y n → t.readV vf = 1) ∧ (¬SpriteCollides s x y n → t.readV vf = 0) ∧
      t.pc = s.pc + 2 ∧ RegsKept [vf] s t ∧ Untouched [.display, .frames] s t

/-- XOR-draw is an involution (R144, derived there): the same draw again, on the display the first one left, with the same
coordinates, `I` and memory, restores the display, and VF is 1 exactly when a targeted pixel is on after the first. -/
def Obligations.DrawTwiceRestoresDisplay : Prop :=
  ∀ (x y n : Nibble) (s t u : State), s.halted = false → exec (.drw x y n) s = .next t → t.halted = false →
    u.disp = t.disp → u.readV x = s.readV x → u.readV y = s.readV y → u.i = s.i →
    (∀ a, u.readByte a = s.readByte a) →
    ∃ w, exec (.drw x y n) u = .next w ∧ w.disp = s.disp ∧
      (w.readV vf = 1 ↔ ∃ row col, SpriteCovers s x y n row col ∧ t.disp.pixel row col = true)

/-! ### Keypad and timer (`44_keypad_timer.md`) -/

/-- Ex9E and ExA1 (R161, R162): complements, on the key state against all 8 bits of `V[x]` (the spec's decision D14, log 18):
with no key, or a register above 0x0F, Ex9E never skips. -/
def Obligations.SkipsOnKeyState : Prop :=
  ∀ (x : Nibble) (s : State),
    (∃ t, exec (.skp x) s = .next t ∧
      ((∃ k, s.key = some k ∧ k.toNat = (s.readV x).toNat) → t.pc = s.pc + 4) ∧
      ((∀ k, s.key = some k → k.toNat ≠ (s.readV x).toNat) → t.pc = s.pc + 2) ∧
      RegsKept [] s t ∧ Untouched [] s t) ∧
    (∃ t, exec (.sknp x) s = .next t ∧
      ((∃ k, s.key = some k ∧ k.toNat = (s.readV x).toNat) → t.pc = s.pc + 2) ∧
      ((∀ k, s.key = some k → k.toNat ≠ (s.readV x).toNat) → t.pc = s.pc + 4) ∧
      RegsKept [] s t ∧ Untouched [] s t)

/-- R163: with no key the step changes nothing at all; with a key its code goes to `V[x]` and the key state stays. -/
def Obligations.KeyWaitHoldsOrLoads : Prop :=
  ∀ (x : Nibble) (s : State),
    (s.key = none → exec (.ldVxK x) s = .next s) ∧
    (∀ k, s.key = some k → ∃ t, exec (.ldVxK x) s = .next t ∧
      (t.readV x).toNat = k.toNat ∧ t.pc = s.pc + 2 ∧ RegsKept [x] s t ∧ Untouched [] s t)

/-- R164, R165: the delay timer is read into a register unchanged, and written from a register. -/
def Obligations.TimerReadAndWrite : Prop :=
  ∀ (x : Nibble) (s : State),
    (∃ t, exec (.ldVxDt x) s = .next t ∧ t.readV x = s.dt ∧
      t.pc = s.pc + 2 ∧ RegsKept [x] s t ∧ Untouched [] s t) ∧
    (∃ t, exec (.ldDtVx x) s = .next t ∧ t.dt = s.readV x ∧
      t.pc = s.pc + 2 ∧ RegsKept [] s t ∧ Untouched [.timer] s t)

/-- Fx18 (R166): nothing changes but `pc`, for every `x` (the spec's decision D20, log 21). -/
def Obligations.SoundTimerWriteDoesNothing : Prop :=
  ∀ (x : Nibble) (s : State), exec (.ldStVx x) s = .next { s with pc := s.pc + 2 }

/-! ### Index register and memory (`45_index_memory.md`) -/

/-- R180: `I` takes the zero-extended address. -/
def Obligations.LoadIndexSetsAddress : Prop :=
  ∀ (nnn : Addr12) (s : State), ∃ t, exec (.ldI nnn) s = .next t ∧ t.i.toNat = nnn.toNat ∧
    t.pc = s.pc + 2 ∧ RegsKept [] s t ∧ Untouched [.index] s t

/-- Fx1E (R181): the zero-extended register is added to `I` modulo 65536, with no flag (the width is the spec's decision
D16, log 17). -/
def Obligations.AddIndexWrapsAtSixteenBits : Prop :=
  ∀ (x : Nibble) (s : State), ∃ t, exec (.addI x) s = .next t ∧
    t.i.toNat = (s.i.toNat + (s.readV x).toNat) % 65536 ∧
    t.pc = s.pc + 2 ∧ RegsKept [] s t ∧ Untouched [.index] s t

/-- R182: `I` takes the whole register times 5, exactly. -/
def Obligations.GlyphAddressIsFiveTimesRegister : Prop :=
  ∀ (x : Nibble) (s : State), ∃ t, exec (.ldF x) s = .next t ∧ t.i.toNat = (s.readV x).toNat * 5 ∧
    t.pc = s.pc + 2 ∧ RegsKept [] s t ∧ Untouched [.index] s t

/-- Fx33 (R183) in range: the decimal digits at `I`, `I+1`, `I+2`, every other byte as before. The range condition is the
spec's decision D5. -/
def Obligations.BcdStoresThreeDigits : Prop :=
  ∀ (x : Nibble) (s : State), InRange s.i.toNat 3 →
    ∃ t, exec (.ldB x) s = .next t ∧
      (t.readByte s.i.toNat).toNat = (s.readV x).toNat / 100 ∧
      (t.readByte (s.i.toNat + 1)).toNat = (s.readV x).toNat / 10 % 10 ∧
      (t.readByte (s.i.toNat + 2)).toNat = (s.readV x).toNat % 10 ∧
      KeptOutside s.i.toNat 3 s t ∧
      t.pc = s.pc + 2 ∧ RegsKept [] s t ∧ Untouched [.memory] s t

/-- Fx55 (R184) in range: `V[k]` at `I + k` for `k` up to `x`, every other byte as before, and `I` moves past them. The range
condition is the spec's decision D5. -/
def Obligations.StoreRegistersAdvancesIndex : Prop :=
  ∀ (x : Nibble) (s : State), InRange s.i.toNat (x.toNat + 1) →
    ∃ t, exec (.stRegs x) s = .next t ∧
      (∀ k : Nibble, k ≤ x → t.readByte (s.i.toNat + k.toNat) = s.readV k) ∧
      KeptOutside s.i.toNat (x.toNat + 1) s t ∧
      t.i.toNat = s.i.toNat + x.toNat + 1 ∧
      t.pc = s.pc + 2 ∧ RegsKept [] s t ∧ Untouched [.memory, .index] s t

/-- Fx65 (R185) in range: `V[k]` from `I + k` for `k` up to `x`, the registers above as before, and `I` stays. The range
condition is the spec's decision D5. -/
def Obligations.LoadRegistersKeepsIndex : Prop :=
  ∀ (x : Nibble) (s : State), InRange s.i.toNat (x.toNat + 1) →
    ∃ t, exec (.ldRegs x) s = .next t ∧
      (∀ k : Nibble, k ≤ x → t.readV k = s.readByte (s.i.toNat + k.toNat)) ∧
      (∀ k : Nibble, x < k → t.readV k = s.readV k) ∧
      t.pc = s.pc + 2 ∧ Untouched [] s t

/-- A data access above 0xFFF faults, whole (R41, R205; the spec's decisions D5, D6, D18): nothing changes but `halted` and
the record, which holds the word and the first address above 0xFFF; Dxyn with `n` = 0 makes no access. -/
def Obligations.DataOutOfRangeFaults : Prop :=
  ∀ (i : Instr) (s : State),
    (match i with
      | .drw _ _ n => ¬InRange s.i.toNat n.toNat
      | .ldB _ => ¬InRange s.i.toNat 3
      | .stRegs x => ¬InRange s.i.toNat (x.toNat + 1)
      | .ldRegs x => ¬InRange s.i.toNat (x.toNat + 1)
      | _ => False) →
    exec i s = .next { s with
      halted := true
      fault := ⟨.dataRange, s.pc, encode i, if s.i.toNat > 0xFFF then s.i else 0x1000⟩ }

/-- The round trip of Fx55 and Fx65 for the same `x` and `I` (R185; conflict C10): the registers read back are those
stored. -/
def Obligations.StoreThenLoadRestoresRegisters : Prop :=
  ∀ (x : Nibble) (s t u : State), s.halted = false → exec (.stRegs x) s = .next t → t.halted = false →
    u.i = s.i → (∀ a, u.readByte a = t.readByte a) →
    ∃ w, exec (.ldRegs x) u = .next w ∧ ∀ k : Nibble, k ≤ x → w.readV k = s.readV k

/-- Fetch is coherent with stores (R53, R235, derived there): two bytes a Fx55 stored are the word fetched, and decoded, by
a step at their address, the very next one included. -/
def Obligations.StoredBytesAreFetched : Prop :=
  ∀ (x k : Nibble) (s t u : State), s.halted = false → exec (.stRegs x) s = .next t → t.halted = false →
    k < x → (∀ a, u.readByte a = t.readByte a) → u.pc.toNat = s.i.toNat + k.toNat →
    u.wordAtPc = s.readV k ++ s.readV (k + 1) ∧
    ∀ i, decodeWord (s.readV k ++ s.readV (k + 1)) = some i → u.host = [] → u.halted = false → step u = exec i u

/-! ### Reset, the host, memory as data (`70_reset_and_hazards.md`) -/

/-- The reset state (R231). The source gives `pc`, the empty stack, the display off and the font's glyph 0; the zeros are the
spec's decisions D8 to D10, D18, D19 (log 6), no key D9 (log 8), the 75 bytes of the other glyphs general knowledge (R43, D11;
log 4). Under any parameters the font table and the fill are theirs and the rest is the same (R7, log 23); this hardware's are
16 stack entries (D7; log 2) and `clear` (D2; log 3). -/
def Obligations.ResetState : Prop :=
  State.reset.pc = 0x0200 ∧ State.reset.sp = 0 ∧ (∀ row col, State.reset.disp.pixel row col = false) ∧
  (List.range 80).map State.reset.readByte =
    [0xF0, 0x90, 0x90, 0x90, 0xF0] ++ [0x20, 0x60, 0x20, 0x20, 0x70] ++
    [0xF0, 0x10, 0xF0, 0x80, 0xF0] ++ [0xF0, 0x10, 0xF0, 0x10, 0xF0] ++
    [0x90, 0x90, 0xF0, 0x10, 0x10] ++ [0xF0, 0x80, 0xF0, 0x10, 0xF0] ++
    [0xF0, 0x80, 0xF0, 0x90, 0xF0] ++ [0xF0, 0x10, 0x20, 0x40, 0x40] ++
    [0xF0, 0x90, 0xF0, 0x90, 0xF0] ++ [0xF0, 0x90, 0xF0, 0x10, 0xF0] ++
    [0xF0, 0x90, 0xF0, 0x90, 0x90] ++ [0xE0, 0x90, 0xE0, 0x90, 0xE0] ++
    [0xF0, 0x80, 0x80, 0x80, 0xF0] ++ [0xE0, 0x90, 0x90, 0x90, 0xE0] ++
    [0xF0, 0x80, 0xF0, 0x80, 0xF0] ++ [0xF0, 0x80, 0xF0, 0x80, 0x80] ∧
  (∀ x, State.reset.readV x = 0) ∧ State.reset.i = 0 ∧ State.reset.dt = 0 ∧
  (∀ a, 80 ≤ a → State.reset.readByte a = 0) ∧
  State.reset.halted = false ∧ State.reset.fault = ⟨.none, 0, 0, 0⟩ ∧ State.reset.key = none ∧
  State.reset.params.stackDepth = 16 ∧ State.reset.params.addVfNoCarry = .clear ∧
  (∀ (p : Config.Params) (a : Nat), (∀ h : a < 80, (State.resetWith p).readByte a = p.fontTable[a]) ∧
    (80 ≤ a → (State.resetWith p).readByte a = p.memFill)) ∧
  (∀ p : Config.Params, { State.resetWith p with params := State.reset.params } = State.reset)

/-- Booting (R232, the spec's decision D24): byte `k` of an image that fits stands at 0x200 + `k`, every other byte and every
other piece of state is as after reset, whatever the parameters; an image too long is not placed (log 11). -/
def Obligations.BootPlacesImage : Prop :=
  ∀ (p : Config.Params) (image : List Byte),
    (image.length ≤ 3584 →
      (∀ k b, image[k]? = some b → (State.boot p image).readByte (0x200 + k) = b) ∧
      (∀ a, a < 0x200 ∨ 0x200 + image.length ≤ a →
        (State.boot p image).readByte a = (State.resetWith p).readByte a)) ∧
    (image.length > 3584 → (State.boot p image).mem = []) ∧
    { State.boot p image with mem := [] } = State.resetWith p

/-- `n` ticks take `n` from the delay timer, stopping at 0, and touch nothing else (R213, the spec's decision D12, log 19). -/
def Obligations.TicksCountDownToZero : Prop :=
  ∀ (n : Nat) (s : State),
    s.hostActions (List.replicate n .tick) = { s with dt := BitVec.ofNat 8 (s.dt.toNat - n) }

/-- The host's other actions (R87, R18, R19, R230): the key state and the random input are set and nothing else; a reset, from
every state, halted ones included, gives the booted machine (the schedule and the model's count of samples stay, log 11). -/
def Obligations.HostActionsSetInputsOrReset : Prop :=
  ∀ s : State,
    (∀ k, s.hostAction (.setKey k) = { s with key := k }) ∧
    (∀ b, s.hostAction (.supplyRandom b) = { s with rnd := some b }) ∧
    (∀ image, (s.hostAction (.reset image)).halted = false ∧ (s.hostAction (.reset image)).pc = 0x0200 ∧
      { s.hostAction (.reset image) with draws := 0, host := [] } = State.boot s.params image)

/-- Memories in canonical form that read the same at every address are the same data (log 5). -/
def Obligations.EqualMemoriesAreEqualData : Prop :=
  ∀ (p : Config.Params) (m n : Memory), m.wf p → n.wf p → (∀ a, a < 4096 → m.read p a = n.read p a) → m = n

/-- The read-out is row-major (R140, R147): 2048 pixels, pixel (`col`, `row`) at index `row * 64 + col`. -/
def Obligations.ReadOutIsRowMajor : Prop :=
  ∀ s : State, s.readBuffer.length = 2048 ∧
    ∀ (row : Fin 32) (col : Fin 64), s.readBuffer[row.val * 64 + col.val]? = some (s.disp.pixel row col)

/-- The parameters (R7, log 23) are fixed for the machine: no step changes them, whatever the instruction, the fault or the
host's actions before it, resets included; and no word placed with `withFetchWord` does. -/
def Obligations.ParametersNeverChange : Prop :=
  (∀ s t : State, step s = .next t → t.params = s.params) ∧
  (∀ (s : State) (nbits w : Nat), (s.withFetchWord nbits w).params = s.params)
end

