-- ==== Sys2Proof/Laws/Decode.lean ====
section
/-! SUPPORT. The fields of a word written as its parts, and a word as its fields (`30_encoding.md` R61): the lemmas a proof
about decoding or encoding rewrites with. -/

namespace Sys2Proof

/-! ### The bits of a word written as its parts -/

/-- Format A. -/
theorem getLsbD_a (op : Nibble) (nnn : Addr12) (i : Nat) :
    BitVec.getLsbD (w := 16) (op ++ nnn) i = if i < 12 then nnn.getLsbD i else op.getLsbD (i - 12) :=
  BitVec.getLsbD_append

/-- Formats XI and X. -/
theorem getLsbD_xi (op x : Nibble) (nn : Byte) (i : Nat) :
    BitVec.getLsbD (w := 16) (op ++ x ++ nn) i =
      if i < 8 then nn.getLsbD i else if i < 12 then x.getLsbD (i - 8) else op.getLsbD (i - 12) := by
  have h : BitVec.getLsbD (w := 16) (op ++ x ++ nn) i =
      if i < 8 then nn.getLsbD i else BitVec.getLsbD (op ++ x) (i - 8) := BitVec.getLsbD_append
  rw [h, BitVec.getLsbD_append, show i - 8 - 4 = i - 12 by omega]
  by_cases h8 : i < 8
  · simp [h8]
  · by_cases h12 : i < 12
    · simp [h8, h12, show i - 8 < 4 by omega]
    · simp [h8, h12, show ¬i - 8 < 4 by omega]

/-- Formats XY and XYN. -/
theorem getLsbD_xyn (op x y n : Nibble) (i : Nat) :
    BitVec.getLsbD (w := 16) (op ++ x ++ y ++ n) i =
      if i < 4 then n.getLsbD i else if i < 8 then y.getLsbD (i - 4)
      else if i < 12 then x.getLsbD (i - 8) else op.getLsbD (i - 12) := by
  have h : BitVec.getLsbD (w := 16) (op ++ x ++ y ++ n) i =
      if i < 4 then n.getLsbD i else BitVec.getLsbD (op ++ x ++ y) (i - 4) := BitVec.getLsbD_append
  rw [h, BitVec.getLsbD_append, BitVec.getLsbD_append, show i - 4 - 4 = i - 8 by omega,
    show i - 8 - 4 = i - 12 by omega]
  by_cases h4 : i < 4
  · simp [h4]
  · by_cases h8 : i < 8
    · simp [h4, h8, show i - 4 < 4 by omega]
    · by_cases h12 : i < 12
      · simp [h4, h8, h12, show ¬i - 4 < 4 by omega, show i - 8 < 4 by omega]
      · simp [h4, h8, h12, show ¬i - 4 < 4 by omega, show ¬i - 8 < 4 by omega]

/-- Two bytes, the high one first (R45). -/
theorem getLsbD_bytes (hi lo : Byte) (i : Nat) :
    BitVec.getLsbD (w := 16) (hi ++ lo) i = if i < 8 then lo.getLsbD i else hi.getLsbD (i - 8) :=
  BitVec.getLsbD_append

/-! ### Fields of `op ++ x ++ nn` (format XI, and X with a fixed low byte) -/

@[simp] theorem fieldOp_xi (op x : Nibble) (nn : Byte) : fieldOp (op ++ x ++ nn) = op := by
  ext i hi
  simp [fieldOp, getLsbD_xi, show ¬12 + i < 8 by omega, BitVec.getLsbD_eq_getElem hi]

@[simp] theorem fieldX_xi (op x : Nibble) (nn : Byte) : fieldX (op ++ x ++ nn) = x := by
  ext i hi
  simp [fieldX, getLsbD_xi, show 8 + i < 12 by omega, BitVec.getLsbD_eq_getElem hi]

@[simp] theorem fieldNN_xi (op x : Nibble) (nn : Byte) : fieldNN (op ++ x ++ nn) = nn := by
  ext i hi
  simp [fieldNN, getLsbD_xi, hi]

/-! ### Fields of `op ++ nnn` (format A) -/

@[simp] theorem fieldOp_a (op : Nibble) (nnn : Addr12) : fieldOp (op ++ nnn) = op := by
  ext i hi
  simp [fieldOp, getLsbD_a, BitVec.getLsbD_eq_getElem hi]

@[simp] theorem fieldNNN_a (op : Nibble) (nnn : Addr12) : fieldNNN (op ++ nnn) = nnn := by
  ext i hi
  simp [fieldNNN, getLsbD_a, hi]

/-! ### Fields of `op ++ x ++ y ++ n` (formats XY and XYN) -/

@[simp] theorem fieldOp_xyn (op x y n : Nibble) : fieldOp (op ++ x ++ y ++ n) = op := by
  ext i hi
  simp [fieldOp, getLsbD_xyn, show ¬12 + i < 4 by omega, show ¬12 + i < 8 by omega, BitVec.getLsbD_eq_getElem hi]

@[simp] theorem fieldX_xyn (op x y n : Nibble) : fieldX (op ++ x ++ y ++ n) = x := by
  ext i hi
  simp [fieldX, getLsbD_xyn, show ¬8 + i < 4 by omega, show 8 + i < 12 by omega, BitVec.getLsbD_eq_getElem hi]

@[simp] theorem fieldY_xyn (op x y n : Nibble) : fieldY (op ++ x ++ y ++ n) = y := by
  ext i hi
  simp [fieldY, getLsbD_xyn, show 4 + i < 8 by omega, BitVec.getLsbD_eq_getElem hi]

@[simp] theorem fieldN_xyn (op x y n : Nibble) : fieldN (op ++ x ++ y ++ n) = n := by
  ext i hi
  simp [fieldN, getLsbD_xyn, hi]

/-! ### A word is its fields -/

theorem word_eq_xi (w : Word) : w = fieldOp w ++ fieldX w ++ fieldNN w := by
  refine BitVec.eq_of_getLsbD_eq fun i hi => ?_
  rw [getLsbD_xi]
  simp only [fieldOp, fieldX, fieldNN, BitVec.getLsbD_extractLsb']
  split_ifs with h8 h12
  · simp [h8]
  · simp [show i - 8 < 4 by omega, show 8 + (i - 8) = i by omega]
  · simp [show i - 12 < 4 by omega, show 12 + (i - 12) = i by omega]

theorem word_eq_a (w : Word) : w = fieldOp w ++ fieldNNN w := by
  refine BitVec.eq_of_getLsbD_eq fun i hi => ?_
  rw [getLsbD_a]
  simp only [fieldOp, fieldNNN, BitVec.getLsbD_extractLsb']
  split_ifs with h12
  · simp [h12]
  · simp [show i - 12 < 4 by omega, show 12 + (i - 12) = i by omega]

theorem word_eq_xyn (w : Word) : w = fieldOp w ++ fieldX w ++ fieldY w ++ fieldN w := by
  refine BitVec.eq_of_getLsbD_eq fun i hi => ?_
  rw [getLsbD_xyn]
  simp only [fieldOp, fieldX, fieldY, fieldN, BitVec.getLsbD_extractLsb']
  split_ifs with h4 h8 h12
  · simp [h4]
  · simp [show i - 4 < 4 by omega, show 4 + (i - 4) = i by omega]
  · simp [show i - 8 < 4 by omega, show 8 + (i - 8) = i by omega]
  · simp [show i - 12 < 4 by omega, show 12 + (i - 12) = i by omega]

/-- The bytes of a word put together again, the high byte first, are the word (R45). -/
theorem highByte_append_lowByte (w : Word) : (highByte w ++ lowByte w : Word) = w := by
  refine BitVec.eq_of_getLsbD_eq fun i hi => ?_
  rw [getLsbD_bytes]
  simp only [highByte, lowByte, BitVec.getLsbD_extractLsb']
  split_ifs with h8
  · simp [h8]
  · simp [show i - 8 < 8 by omega, show 8 + (i - 8) = i by omega]

@[simp] theorem highByte_append (hi lo : Byte) : highByte (hi ++ lo) = hi := by
  ext i h
  simp [highByte, getLsbD_bytes, BitVec.getLsbD_eq_getElem h]

@[simp] theorem lowByte_append (hi lo : Byte) : lowByte (hi ++ lo) = lo := by
  ext i h
  simp [lowByte, getLsbD_bytes, h]

end Sys2Proof
end

