-- ==== Sys2Proof/Laws/Memory.lean ====
section
/-! SUPPORT. What the memory operations do, once: a read after a write, the canonical form kept, the range check. -/

namespace Sys2Proof.Machine

variable (p : Config.Params)

/-! ### One byte -/

theorem Memory.read_insert (a : Nat) (b : Byte) (m : Memory) (a' : Nat) :
    (Memory.insert a b m).read p a' = if a' = a then b else m.read p a' := by
  induction m with
  | nil => by_cases h : a' = a <;> simp [Memory.insert, Memory.read, h]
  | cons c m ih =>
    obtain ⟨k, v⟩ := c
    simp only [Memory.insert]
    split
    · simp only [Memory.read]
    · split
      · subst_vars
        simp only [Memory.read]
        split <;> rfl
      · simp only [Memory.read, ih]
        split
        · rw [if_neg]
          omega
        · rfl

theorem Memory.read_filter_ne (a : Nat) (m : Memory) (a' : Nat) :
    Memory.read (m.filter fun c => c.1 != a) p a' = if a' = a then Memory.resetByte p a else m.read p a' := by
  induction m with
  | nil => by_cases h : a' = a <;> simp [Memory.read, h]
  | cons c m ih =>
    obtain ⟨k, v⟩ := c
    by_cases hk : k = a
    · subst hk
      simp only [List.filter_cons, bne_self_eq_false, Bool.false_eq_true, if_false, ih, Memory.read]
      split <;> rfl
    · simp only [List.filter_cons, bne_iff_ne, ne_eq, hk, not_false_eq_true, if_true, Memory.read, ih]
      split
      · rw [if_neg]
        omega
      · rfl

/-- A read after a write: the written byte at its address, every other address as before (R50). -/
@[simp] theorem Memory.read_write (m : Memory) (a : Nat) (b : Byte) (a' : Nat) :
    (m.write p a b).read p a' = if a' = a then b else m.read p a' := by
  unfold Memory.write
  split
  · next h => rw [Memory.read_filter_ne, h]
  · exact Memory.read_insert p a b m a'

theorem Memory.mem_insert {a : Nat} {b : Byte} {m : Memory} {c : Host.Cell} (h : c ∈ Memory.insert a b m) :
    c = (a, b) ∨ c ∈ m := by
  induction m with
  | nil => simpa [Memory.insert] using h
  | cons d m ih =>
    simp only [Memory.insert] at h
    split at h
    · simpa using h
    · split at h
      · rcases List.mem_cons.mp h with h | h
        · exact .inl h
        · exact .inr (List.mem_cons_of_mem _ h)
      · rcases List.mem_cons.mp h with h | h
        · exact .inr (h ▸ List.mem_cons_self)
        · exact (ih h).imp id (List.mem_cons_of_mem _)

theorem Memory.insert_rising {a : Nat} {b : Byte} {m : Memory} (h : m.Pairwise fun c d => c.1 < d.1) :
    (Memory.insert a b m).Pairwise fun c d => c.1 < d.1 := by
  induction m with
  | nil => simp [Memory.insert]
  | cons d m ih =>
    obtain ⟨hd, hm⟩ := List.pairwise_cons.mp h
    simp only [Memory.insert]
    split
    · next hlt =>
      refine List.pairwise_cons.mpr ⟨fun c hc => ?_, h⟩
      rcases List.mem_cons.mp hc with rfl | hc
      · exact hlt
      · exact hlt.trans (hd c hc)
    · split
      · next heq => exact List.pairwise_cons.mpr ⟨fun c hc => heq ▸ hd c hc, hm⟩
      · next hlt hne =>
        refine List.pairwise_cons.mpr ⟨fun c hc => ?_, ih hm⟩
        rcases Memory.mem_insert hc with rfl | hc
        · simp only
          omega
        · exact hd c hc

/-- Reset memory, nothing listed, is in canonical form. -/
theorem Memory.wf_nil : Memory.wf [] p := ⟨List.Pairwise.nil, by simp⟩

/-- A write inside the address space keeps the canonical form. -/
theorem Memory.wf_write {m : Memory} (h : m.wf p) {a : Nat} (ha : a < Config.memSize) (b : Byte) : (m.write p a b).wf p := by
  unfold Memory.write
  split
  · exact ⟨h.1.filter _, fun c hc => h.2 c (List.mem_filter.mp hc).1⟩
  · next hb =>
    refine ⟨Memory.insert_rising h.1, fun c hc => ?_⟩
    rcases Memory.mem_insert hc with rfl | hc
    · exact ⟨ha, hb⟩
    · exact h.2 c hc

/-! ### Several bytes -/

@[simp] theorem Memory.length_readBytes (m : Memory) (a n : Nat) : (m.readBytes p a n).length = n := by
  induction n generalizing a with
  | zero => rfl
  | succ n ih => simp [Memory.readBytes, ih]

/-- Byte `k` of a read is the byte at `a + k`. -/
theorem Memory.getElem?_readBytes (m : Memory) (a n k : Nat) (h : k < n) :
    (m.readBytes p a n)[k]? = some (m.read p (a + k)) := by
  induction n generalizing a k with
  | zero => omega
  | succ n ih =>
    cases k with
    | zero => simp [Memory.readBytes]
    | succ k =>
      simp only [Memory.readBytes, List.getElem?_cons_succ]
      rw [ih (a + 1) k (by omega)]
      congr 2
      omega

/-- A read after a store of several bytes: byte `k` of the list at `a + k`, every other address as before. -/
theorem Memory.read_writeBytes (m : Memory) (a : Nat) (bytes : List Byte) (a' : Nat) :
    (m.writeBytes p a bytes).read p a' = if a ≤ a' then bytes.getD (a' - a) (m.read p a') else m.read p a' := by
  induction bytes generalizing m a with
  | nil => simp [Memory.writeBytes]
  | cons b bs ih =>
    simp only [Memory.writeBytes, ih, Memory.read_write]
    by_cases h : a' = a
    · subst h
      simp
    · by_cases hle : a ≤ a'
      · obtain ⟨k, rfl⟩ : ∃ k, a' = a + 1 + k := ⟨a' - (a + 1), by omega⟩
        rw [if_pos (by omega), if_neg h, if_pos hle, show a + 1 + k - (a + 1) = k by omega,
          show a + 1 + k - a = k + 1 by omega]
        simp
      · rw [if_neg (by omega), if_neg h, if_neg hle]

/-- A store inside the address space keeps the canonical form. -/
theorem Memory.wf_writeBytes {m : Memory} (h : m.wf p) {a : Nat} {bytes : List Byte}
    (ha : a + bytes.length ≤ Config.memSize ∨ bytes = []) : (m.writeBytes p a bytes).wf p := by
  induction bytes generalizing m a with
  | nil => exact h
  | cons b bs ih =>
    simp only [List.length_cons, reduceCtorEq, or_false] at ha
    exact ih (Memory.wf_write p h (by omega) b) (.inl (by omega))

/-! ### The range check -/

/-- The range check in one line: nothing when the access is in range, else the first address above 0xFFF. -/
theorem firstOutOfRange_eq (a n : Nat) :
    firstOutOfRange a n = if n = 0 ∨ a + n ≤ 4096 then none else some (firstAbove a) := by
  induction n generalizing a with
  | zero => simp [firstOutOfRange]
  | succ n ih =>
    simp only [firstOutOfRange, ih, firstAbove]
    split_ifs <;> simp_all <;> omega

theorem memRead_ok {a n : Nat} (h : InRange a n) (m : Memory) : memRead m p a n = .ok (m.readBytes p a n) := by
  simp only [memRead, firstOutOfRange_eq, if_pos (show n = 0 ∨ a + n ≤ 4096 from h)]

theorem memRead_error {a n : Nat} (h : ¬InRange a n) (m : Memory) : memRead m p a n = .error (firstAbove a) := by
  simp only [memRead, firstOutOfRange_eq, if_neg (show ¬(n = 0 ∨ a + n ≤ 4096) from h)]

/-- A read that answers bytes was in range and answers the bytes memory holds. -/
theorem memRead_cases (m : Memory) (a n : Nat) :
    (InRange a n ∧ memRead m p a n = .ok (m.readBytes p a n)) ∨
      (¬InRange a n ∧ memRead m p a n = .error (firstAbove a)) := by
  by_cases h : InRange a n
  · exact .inl ⟨h, memRead_ok p h m⟩
  · exact .inr ⟨h, memRead_error p h m⟩

/-- A store is performed whole when it is in range, and not at all when it is not (R41, R85). -/
theorem memWrite_cases (m : Memory) (a : Nat) (bytes : List Byte) :
    (InRange a bytes.length ∧ memWrite m p a bytes = .ok (m.writeBytes p a bytes)) ∨
      (¬InRange a bytes.length ∧ memWrite m p a bytes = .error (firstAbove a)) := by
  by_cases h : InRange a bytes.length
  · refine .inl ⟨h, ?_⟩
    simp only [memWrite, firstOutOfRange_eq, if_pos (show bytes.length = 0 ∨ a + bytes.length ≤ 4096 from h)]
  · refine .inr ⟨h, ?_⟩
    simp only [memWrite, firstOutOfRange_eq, if_neg (show ¬(bytes.length = 0 ∨ a + bytes.length ≤ 4096) from h)]

end Sys2Proof.Machine
end

