-- ==== Sys2Proof/Laws/Display.lean ====
section
/-! SUPPORT. What the draw engine does, pixel by pixel: exactly the covered pixels are toggled, and a collision is reported
exactly when a covered pixel was on (`43_display.md` R141, R143). -/

namespace Sys2Proof.Machine

@[simp] theorem Display.pixel_clear (r : Fin 32) (c : Fin 64) : Display.clear.pixel r c = false := by
  simp [Display.pixel, Display.clear]

/-- Toggling one pixel changes that pixel alone. -/
theorem Display.pixel_toggle (d : Display) (r r' : Fin 32) (c c' : Fin 64) :
    (d.toggle r c).pixel r' c' = if r' = r ∧ c' = c then !d.pixel r c else d.pixel r' c' := by
  simp only [Display.pixel, Display.toggle, Vector.getElem_set, Fin.ext_iff]
  by_cases hr : r.val = r'.val
  · simp only [hr, if_true, Vector.getElem_set, true_and]
    by_cases hc : c.val = c'.val
    · simp [hc]
    · simp [hc, Ne.symm hc]
  · simp [hr, Ne.symm hr]

/-- Two displays with the same pixels are the same display. -/
theorem Display.ext_pixel {d e : Display} (h : ∀ r c, d.pixel r c = e.pixel r c) : d = e :=
  Vector.ext fun i hi => Vector.ext fun j hj => h ⟨i, hi⟩ ⟨j, hj⟩

/-! ### One sprite row -/

/-- Some 1 bit of the list, the first at column `c`, targets column `col`. -/
def BitsCover (bits : List Bool) (c : Nat) (col : Fin 64) : Prop := ∃ k, bits[k]? = some true ∧ (c + k) % 64 = col.val

theorem bitsCover_nil (c : Nat) (col : Fin 64) : ¬BitsCover [] c col := by simp [BitsCover]

theorem bitsCover_cons (b : Bool) (bits : List Bool) (c : Nat) (col : Fin 64) :
    BitsCover (b :: bits) c col ↔ (b = true ∧ c % 64 = col.val) ∨ BitsCover bits (c + 1) col := by
  constructor
  · rintro ⟨k, hk, hc⟩
    cases k with
    | zero => exact .inl ⟨by simpa using hk, by simpa using hc⟩
    | succ k => exact .inr ⟨k, by simpa using hk, by rw [← hc]; congr 1; omega⟩
  · rintro (⟨hb, hc⟩ | ⟨k, hk, hc⟩)
    · exact ⟨0, by simpa using hb, by simpa using hc⟩
    · exact ⟨k + 1, by simpa using hk, by rw [← hc]; congr 1; omega⟩

/-- At most 64 bits fall on as many columns: the later bits miss the first one's column. -/
theorem bitsCover_later {bits : List Bool} {c : Nat} {col : Fin 64} (hlen : bits.length < 64)
    (h : BitsCover bits (c + 1) col) : col.val ≠ c % 64 := by
  obtain ⟨k, hk, hc⟩ := h
  have : k < bits.length := (List.getElem?_eq_some_iff.mp hk).1
  omega

/-- The display after the bits of one row. -/
theorem pixel_drawBits (row : Fin 32) (bits : List Bool) (c : Nat) (d : Display) (hit : Bool) (hlen : bits.length ≤ 64)
    (r : Fin 32) (col : Fin 64) :
    ((r = row ∧ BitsCover bits c col) → (drawBits row bits c (d, hit)).1.pixel r col = !d.pixel r col) ∧
      (¬(r = row ∧ BitsCover bits c col) → (drawBits row bits c (d, hit)).1.pixel r col = d.pixel r col) := by
  induction bits generalizing c d hit with
  | nil => exact ⟨fun h => absurd h.2 (bitsCover_nil c col), fun _ => rfl⟩
  | cons b bits ih =>
    simp only [List.length_cons] at hlen
    rw [bitsCover_cons]
    have hnext := ih (c + 1) (if b then d.toggle row (Fin.ofNat 64 c) else d)
      (if b then hit || d.pixel row (Fin.ofNat 64 c) else hit) (by omega)
    have hacc : (if b then d.toggle row (Fin.ofNat 64 c) else d,
        if b then hit || d.pixel row (Fin.ofNat 64 c) else hit) =
        (if b = true then (d.toggle row (Fin.ofNat 64 c), hit || d.pixel row (Fin.ofNat 64 c)) else (d, hit)) := by
      cases b <;> rfl
    rw [hacc] at hnext
    by_cases hrest : r = row ∧ BitsCover bits (c + 1) col
    · have hmiss := bitsCover_later (by omega) hrest.2
      refine ⟨fun _ => ?_, fun h => absurd ⟨hrest.1, .inr hrest.2⟩ h⟩
      rw [drawBits, hnext.1 hrest]
      cases b with
      | false => rfl
      | true => simp only [if_true, Display.pixel_toggle, Fin.ext_iff, Fin.ofNat, hmiss, and_false, if_false]
    · rw [drawBits, hnext.2 hrest]
      cases b with
      | false => exact ⟨fun h => absurd ⟨h.1, h.2.resolve_left (by simp)⟩ hrest, fun _ => rfl⟩
      | true =>
        simp only [if_true, Display.pixel_toggle, Fin.ext_iff, Fin.ofNat, true_and]
        by_cases hhere : r.val = row.val ∧ col.val = c % 64
        · refine ⟨fun _ => ?_, fun h => absurd ⟨hhere.1, .inl hhere.2.symm⟩ h⟩
          rw [if_pos hhere, Fin.ext hhere.1, show col = ⟨c % 64, _⟩ from Fin.ext hhere.2]
        · refine ⟨fun h => ?_, fun _ => if_neg hhere⟩
          rcases h.2 with h2 | h2
          · exact absurd ⟨h.1, h2.symm⟩ hhere
          · exact absurd ⟨Fin.ext h.1, h2⟩ hrest

/-- The collision of the bits of one row. -/
theorem hit_drawBits (row : Fin 32) (bits : List Bool) (c : Nat) (d : Display) (hit : Bool) (hlen : bits.length ≤ 64) :
    (drawBits row bits c (d, hit)).2 = true ↔
      hit = true ∨ ∃ col, BitsCover bits c col ∧ d.pixel row col = true := by
  induction bits generalizing c d hit with
  | nil => simp [drawBits, bitsCover_nil]
  | cons b bits ih =>
    simp only [List.length_cons] at hlen
    simp only [bitsCover_cons]
    cases b with
    | false =>
      rw [drawBits]
      simpa using ih (c + 1) d hit (by omega)
    | true =>
      rw [drawBits]
      simp only [if_true]
      rw [ih (c + 1) _ _ (by omega)]
      constructor
      · rintro (h | ⟨col, hcov, hpix⟩)
        · rcases Bool.or_eq_true_iff.mp h with h | h
          · exact .inl h
          · exact .inr ⟨Fin.ofNat 64 c, .inl ⟨trivial, rfl⟩, h⟩
        · have hmiss := bitsCover_later (by omega) hcov
          refine .inr ⟨col, .inr hcov, ?_⟩
          rwa [Display.pixel_toggle, if_neg] at hpix
          simp only [true_and, Fin.ext_iff, Fin.ofNat]
          exact hmiss
      · rintro (h | ⟨col, ⟨-, hcov⟩ | hcov, hpix⟩)
        · exact .inl (by simp [h])
        · refine .inl ?_
          rw [show Fin.ofNat 64 c = col from Fin.ext hcov]
          simp [hpix]
        · have hmiss := bitsCover_later (by omega) hcov
          refine .inr ⟨col, hcov, ?_⟩
          rw [Display.pixel_toggle, if_neg, hpix]
          simp only [true_and, Fin.ext_iff, Fin.ofNat]
          exact hmiss

theorem length_spriteBits (b : Byte) : (spriteBits b).length = 8 := rfl

/-- Bit index `k` of a sprite row is `b[7 - k]`, most significant first (R141). -/
theorem getElem?_spriteBits (b : Byte) (k : Nat) :
    (spriteBits b)[k]? = some true ↔ k < 8 ∧ b.getLsbD (7 - k) = true := by
  by_cases h : k < 8
  · interval_cases k <;> simp [spriteBits]
  · rw [List.getElem?_eq_none (by rw [length_spriteBits]; omega)]
    simp [h]

/-- A 1 bit of the sprite row `b`, drawn from column `col0`, targets column `col`. -/
def ByteCovers (b : Byte) (col0 : Nat) (col : Fin 64) : Prop :=
  ∃ k, k < 8 ∧ (col0 + k) % 64 = col.val ∧ b.getLsbD (7 - k) = true

theorem bitsCover_spriteBits (b : Byte) (col0 : Nat) (col : Fin 64) :
    BitsCover (spriteBits b) col0 col ↔ ByteCovers b col0 col := by
  simp only [BitsCover, ByteCovers, getElem?_spriteBits]
  exact exists_congr fun k => by tauto

/-- `DrawByte` (R141): exactly the covered pixels of its row are toggled. -/
theorem pixel_drawByte (b : Byte) (col0 row : Nat) (d : Display) (r : Fin 32) (col : Fin 64) :
    ((r.val = row % 32 ∧ ByteCovers b col0 col) → (drawByte b col0 row d).1.pixel r col = !d.pixel r col) ∧
      (¬(r.val = row % 32 ∧ ByteCovers b col0 col) → (drawByte b col0 row d).1.pixel r col = d.pixel r col) := by
  have h := pixel_drawBits (Fin.ofNat 32 row) (spriteBits b) col0 d false (by rw [length_spriteBits]; omega) r col
  rwa [bitsCover_spriteBits, Fin.ext_iff] at h

/-- `DrawByte` (R141): a collision exactly when a covered pixel of its row was on. -/
theorem hit_drawByte (b : Byte) (col0 row : Nat) (d : Display) :
    (drawByte b col0 row d).2 = true ↔
      ∃ r col, r.val = row % 32 ∧ ByteCovers b col0 col ∧ d.pixel r col = true := by
  have h := hit_drawBits (Fin.ofNat 32 row) (spriteBits b) col0 d false (by rw [length_spriteBits]; omega)
  simp only [bitsCover_spriteBits, Bool.false_eq_true, false_or] at h
  refine h.trans ?_
  constructor
  · rintro ⟨col, hcov, hpix⟩
    exact ⟨Fin.ofNat 32 row, col, rfl, hcov, hpix⟩
  · rintro ⟨r, col, hr, hcov, hpix⟩
    exact ⟨col, hcov, by rwa [← show r = Fin.ofNat 32 row from Fin.ext hr]⟩

/-! ### A whole sprite -/

/-- A 1 bit of the sprite `rows`, its first row drawn at row `row0` from column `col0`, targets the pixel (`r`, `col`). -/
def RowsCover (rows : List Byte) (col0 row0 : Nat) (r : Fin 32) (col : Fin 64) : Prop :=
  ∃ j b, rows[j]? = some b ∧ (row0 + j) % 32 = r.val ∧ ByteCovers b col0 col

theorem rowsCover_cons (b : Byte) (rows : List Byte) (col0 row0 : Nat) (r : Fin 32) (col : Fin 64) :
    RowsCover (b :: rows) col0 row0 r col ↔
      (row0 % 32 = r.val ∧ ByteCovers b col0 col) ∨ RowsCover rows col0 (row0 + 1) r col := by
  constructor
  · rintro ⟨j, b', hj, hr, hc⟩
    cases j with
    | zero =>
      obtain rfl : b = b' := by simpa using hj
      exact .inl ⟨by simpa using hr, hc⟩
    | succ j => exact .inr ⟨j, b', by simpa using hj, by rw [← hr]; congr 1; omega, hc⟩
  · rintro (⟨hr, hc⟩ | ⟨j, b', hj, hr, hc⟩)
    · exact ⟨0, b, by simp, by simpa using hr, hc⟩
    · exact ⟨j + 1, b', by simpa using hj, by rw [← hr]; congr 1; omega, hc⟩

theorem rowsCover_later {rows : List Byte} {col0 row0 : Nat} {r : Fin 32} {col : Fin 64} (hlen : rows.length < 32)
    (h : RowsCover rows col0 (row0 + 1) r col) : r.val ≠ row0 % 32 := by
  obtain ⟨j, b, hj, hr, -⟩ := h
  have : j < rows.length := (List.getElem?_eq_some_iff.mp hj).1
  omega

/-- The row loop (R143): exactly the covered pixels are toggled. -/
theorem pixel_drawRows (col0 : Nat) (rows : List Byte) (row0 : Nat) (d : Display) (hit : Bool) (hlen : rows.length ≤ 32)
    (r : Fin 32) (col : Fin 64) :
    (RowsCover rows col0 row0 r col → (drawRows col0 rows row0 (d, hit)).1.pixel r col = !d.pixel r col) ∧
      (¬RowsCover rows col0 row0 r col → (drawRows col0 rows row0 (d, hit)).1.pixel r col = d.pixel r col) := by
  induction rows generalizing row0 d hit with
  | nil => exact ⟨fun ⟨_, _, h, _⟩ => by simp at h, fun _ => rfl⟩
  | cons b rows ih =>
    simp only [List.length_cons] at hlen
    rw [rowsCover_cons]
    have hnext := ih (row0 + 1) (drawByte b col0 (row0 % 32) d).1 (hit || (drawByte b col0 (row0 % 32) d).2) (by omega)
    have hbyte := pixel_drawByte b col0 (row0 % 32) d r col
    rw [Nat.mod_mod] at hbyte
    rw [show drawRows col0 (b :: rows) row0 (d, hit) = drawRows col0 rows (row0 + 1)
      ((drawByte b col0 (row0 % 32) d).1, hit || (drawByte b col0 (row0 % 32) d).2) from rfl]
    by_cases hrest : RowsCover rows col0 (row0 + 1) r col
    · have hmiss := rowsCover_later (by omega) hrest
      refine ⟨fun _ => ?_, fun h => absurd (.inr hrest) h⟩
      rw [hnext.1 hrest, hbyte.2 fun h => hmiss h.1]
    · rw [hnext.2 hrest]
      by_cases hhere : r.val = row0 % 32 ∧ ByteCovers b col0 col
      · exact ⟨fun _ => hbyte.1 hhere, fun h => absurd (.inl ⟨hhere.1.symm, hhere.2⟩) h⟩
      · refine ⟨fun h => ?_, fun _ => hbyte.2 hhere⟩
        rcases h with h | h
        · exact absurd ⟨h.1.symm, h.2⟩ hhere
        · exact absurd h hrest

/-- The row loop (R143): a collision exactly when a covered pixel was on. -/
theorem hit_drawRows (col0 : Nat) (rows : List Byte) (row0 : Nat) (d : Display) (hit : Bool) (hlen : rows.length ≤ 32) :
    (drawRows col0 rows row0 (d, hit)).2 = true ↔
      hit = true ∨ ∃ r col, RowsCover rows col0 row0 r col ∧ d.pixel r col = true := by
  induction rows generalizing row0 d hit with
  | nil => simp [drawRows, RowsCover]
  | cons b rows ih =>
    simp only [List.length_cons] at hlen
    rw [show drawRows col0 (b :: rows) row0 (d, hit) = drawRows col0 rows (row0 + 1)
      ((drawByte b col0 (row0 % 32) d).1, hit || (drawByte b col0 (row0 % 32) d).2) from rfl]
    rw [ih (row0 + 1) _ _ (by omega), Bool.or_eq_true, hit_drawByte, Nat.mod_mod, or_assoc]
    refine or_congr_right ?_
    have hkeep : ∀ r col, RowsCover rows col0 (row0 + 1) r col →
        (drawByte b col0 (row0 % 32) d).1.pixel r col = d.pixel r col := by
      intro r col h
      have hmiss := rowsCover_later (by omega) h
      have hbyte := pixel_drawByte b col0 (row0 % 32) d r col
      rw [Nat.mod_mod] at hbyte
      exact hbyte.2 fun h' => hmiss h'.1
    constructor
    · rintro (⟨r, col, hr, hcov, hpix⟩ | ⟨r, col, hcov, hpix⟩)
      · exact ⟨r, col, (rowsCover_cons ..).mpr (.inl ⟨hr.symm, hcov⟩), hpix⟩
      · exact ⟨r, col, (rowsCover_cons ..).mpr (.inr hcov), by rwa [hkeep r col hcov] at hpix⟩
    · rintro ⟨r, col, hcov, hpix⟩
      rcases (rowsCover_cons ..).mp hcov with h | h
      · exact .inl ⟨r, col, h.1.symm, h.2, hpix⟩
      · exact .inr ⟨r, col, h, by rwa [hkeep r col h]⟩

/-- The display after the sprite in memory at `I`, said in the terms of the claims. -/
theorem rowsCover_readBytes (s : State) (x y n : Nibble) (r : Fin 32) (col : Fin 64) :
    RowsCover (s.mem.readBytes s.params s.i.toNat n.toNat) (s.readV x).toNat (s.readV y).toNat r col ↔
      SpriteCovers s x y n r col := by
  unfold RowsCover SpriteCovers ByteCovers State.readByte
  constructor
  · rintro ⟨j, b, hj, hr, k, hk, hc, hb⟩
    have hlt : j < n.toNat := by
      simpa using (List.getElem?_eq_some_iff.mp hj).1
    rw [Memory.getElem?_readBytes _ _ _ _ _ hlt] at hj
    exact ⟨j, k, hlt, hk, hr, hc, by rwa [Option.some.inj hj]⟩
  · rintro ⟨j, k, hj, hk, hr, hc, hb⟩
    exact ⟨j, _, Memory.getElem?_readBytes _ _ _ _ _ hj, hr, k, hk, hc, hb⟩

/-- `drawSprite` on the bytes at `I` (R143): exactly the pixels the sprite covers are toggled, and a collision is reported
exactly when one of them was on. -/
theorem drawSprite_spec (s : State) (x y n : Nibble) :
    let out := drawSprite (s.readV x) (s.readV y) (s.mem.readBytes s.params s.i.toNat n.toNat) s.disp
    (∀ r col, (SpriteCovers s x y n r col → out.1.pixel r col = !s.disp.pixel r col) ∧
      (¬SpriteCovers s x y n r col → out.1.pixel r col = s.disp.pixel r col)) ∧
    (out.2 = true ↔ SpriteCollides s x y n) := by
  have hlen : (s.mem.readBytes s.params s.i.toNat n.toNat).length ≤ 32 := by
    rw [Memory.length_readBytes]
    omega
  refine ⟨fun r col => ?_, ?_⟩
  · rw [← rowsCover_readBytes]
    exact pixel_drawRows _ _ _ _ _ hlen r col
  · refine (hit_drawRows _ _ _ _ _ hlen).trans ?_
    simp only [Bool.false_eq_true, false_or, rowsCover_readBytes, SpriteCollides]

end Sys2Proof.Machine
end

