-- ==== Sys2Proof/Laws/State.lean ====
section
/-! SUPPORT. One lemma per field per update of the state, each true by unfolding, so that no later proof unfolds an
update; and reading a register after each update. -/

namespace Sys2Proof.Machine

variable (s : State)

/-! ### `State.writeV` -/

@[simp] theorem State.writeV_v (x : Nibble) (b : Byte) : (s.writeV x b).v = s.v.set x.toNat b x.isLt := rfl
@[simp] theorem State.writeV_i (x : Nibble) (b : Byte) : (s.writeV x b).i = s.i := rfl
@[simp] theorem State.writeV_pc (x : Nibble) (b : Byte) : (s.writeV x b).pc = s.pc := rfl
@[simp] theorem State.writeV_stack (x : Nibble) (b : Byte) : (s.writeV x b).stack = s.stack := rfl
@[simp] theorem State.writeV_mem (x : Nibble) (b : Byte) : (s.writeV x b).mem = s.mem := rfl
@[simp] theorem State.writeV_disp (x : Nibble) (b : Byte) : (s.writeV x b).disp = s.disp := rfl
@[simp] theorem State.writeV_dt (x : Nibble) (b : Byte) : (s.writeV x b).dt = s.dt := rfl
@[simp] theorem State.writeV_halted (x : Nibble) (b : Byte) : (s.writeV x b).halted = s.halted := rfl
@[simp] theorem State.writeV_fault (x : Nibble) (b : Byte) : (s.writeV x b).fault = s.fault := rfl
@[simp] theorem State.writeV_key (x : Nibble) (b : Byte) : (s.writeV x b).key = s.key := rfl
@[simp] theorem State.writeV_rnd (x : Nibble) (b : Byte) : (s.writeV x b).rnd = s.rnd := rfl
@[simp] theorem State.writeV_draws (x : Nibble) (b : Byte) : (s.writeV x b).draws = s.draws := rfl
@[simp] theorem State.writeV_frames (x : Nibble) (b : Byte) : (s.writeV x b).frames = s.frames := rfl
@[simp] theorem State.writeV_host (x : Nibble) (b : Byte) : (s.writeV x b).host = s.host := rfl
@[simp] theorem State.writeV_params (x : Nibble) (b : Byte) : (s.writeV x b).params = s.params := rfl

/-! ### `State.writeBlock` -/

@[simp] theorem State.writeBlock_v (bytes : List Byte) : (s.writeBlock bytes).v = loadBlock 0 bytes s.v := rfl
@[simp] theorem State.writeBlock_i (bytes : List Byte) : (s.writeBlock bytes).i = s.i := rfl
@[simp] theorem State.writeBlock_pc (bytes : List Byte) : (s.writeBlock bytes).pc = s.pc := rfl
@[simp] theorem State.writeBlock_stack (bytes : List Byte) : (s.writeBlock bytes).stack = s.stack := rfl
@[simp] theorem State.writeBlock_mem (bytes : List Byte) : (s.writeBlock bytes).mem = s.mem := rfl
@[simp] theorem State.writeBlock_disp (bytes : List Byte) : (s.writeBlock bytes).disp = s.disp := rfl
@[simp] theorem State.writeBlock_dt (bytes : List Byte) : (s.writeBlock bytes).dt = s.dt := rfl
@[simp] theorem State.writeBlock_halted (bytes : List Byte) : (s.writeBlock bytes).halted = s.halted := rfl
@[simp] theorem State.writeBlock_fault (bytes : List Byte) : (s.writeBlock bytes).fault = s.fault := rfl
@[simp] theorem State.writeBlock_key (bytes : List Byte) : (s.writeBlock bytes).key = s.key := rfl
@[simp] theorem State.writeBlock_rnd (bytes : List Byte) : (s.writeBlock bytes).rnd = s.rnd := rfl
@[simp] theorem State.writeBlock_draws (bytes : List Byte) : (s.writeBlock bytes).draws = s.draws := rfl
@[simp] theorem State.writeBlock_frames (bytes : List Byte) : (s.writeBlock bytes).frames = s.frames := rfl
@[simp] theorem State.writeBlock_host (bytes : List Byte) : (s.writeBlock bytes).host = s.host := rfl
@[simp] theorem State.writeBlock_params (bytes : List Byte) : (s.writeBlock bytes).params = s.params := rfl

/-! ### `State.advance` -/

@[simp] theorem State.advance_v : (s.advance).v = s.v := rfl
@[simp] theorem State.advance_i : (s.advance).i = s.i := rfl
@[simp] theorem State.advance_pc : (s.advance).pc = s.pc + 2 := rfl
@[simp] theorem State.advance_stack : (s.advance).stack = s.stack := rfl
@[simp] theorem State.advance_mem : (s.advance).mem = s.mem := rfl
@[simp] theorem State.advance_disp : (s.advance).disp = s.disp := rfl
@[simp] theorem State.advance_dt : (s.advance).dt = s.dt := rfl
@[simp] theorem State.advance_halted : (s.advance).halted = s.halted := rfl
@[simp] theorem State.advance_fault : (s.advance).fault = s.fault := rfl
@[simp] theorem State.advance_key : (s.advance).key = s.key := rfl
@[simp] theorem State.advance_rnd : (s.advance).rnd = s.rnd := rfl
@[simp] theorem State.advance_draws : (s.advance).draws = s.draws := rfl
@[simp] theorem State.advance_frames : (s.advance).frames = s.frames := rfl
@[simp] theorem State.advance_host : (s.advance).host = s.host := rfl
@[simp] theorem State.advance_params : (s.advance).params = s.params := rfl

/-! ### `State.skipIf` -/

@[simp] theorem State.skipIf_v (c : Bool) : (s.skipIf c).v = s.v := rfl
@[simp] theorem State.skipIf_i (c : Bool) : (s.skipIf c).i = s.i := rfl
@[simp] theorem State.skipIf_pc (c : Bool) : (s.skipIf c).pc = if c then s.pc + 4 else s.pc + 2 := rfl
@[simp] theorem State.skipIf_stack (c : Bool) : (s.skipIf c).stack = s.stack := rfl
@[simp] theorem State.skipIf_mem (c : Bool) : (s.skipIf c).mem = s.mem := rfl
@[simp] theorem State.skipIf_disp (c : Bool) : (s.skipIf c).disp = s.disp := rfl
@[simp] theorem State.skipIf_dt (c : Bool) : (s.skipIf c).dt = s.dt := rfl
@[simp] theorem State.skipIf_halted (c : Bool) : (s.skipIf c).halted = s.halted := rfl
@[simp] theorem State.skipIf_fault (c : Bool) : (s.skipIf c).fault = s.fault := rfl
@[simp] theorem State.skipIf_key (c : Bool) : (s.skipIf c).key = s.key := rfl
@[simp] theorem State.skipIf_rnd (c : Bool) : (s.skipIf c).rnd = s.rnd := rfl
@[simp] theorem State.skipIf_draws (c : Bool) : (s.skipIf c).draws = s.draws := rfl
@[simp] theorem State.skipIf_frames (c : Bool) : (s.skipIf c).frames = s.frames := rfl
@[simp] theorem State.skipIf_host (c : Bool) : (s.skipIf c).host = s.host := rfl
@[simp] theorem State.skipIf_params (c : Bool) : (s.skipIf c).params = s.params := rfl

/-! ### `State.jumpTo` -/

@[simp] theorem State.jumpTo_v (a : Word) : (s.jumpTo a).v = s.v := rfl
@[simp] theorem State.jumpTo_i (a : Word) : (s.jumpTo a).i = s.i := rfl
@[simp] theorem State.jumpTo_pc (a : Word) : (s.jumpTo a).pc = a := rfl
@[simp] theorem State.jumpTo_stack (a : Word) : (s.jumpTo a).stack = s.stack := rfl
@[simp] theorem State.jumpTo_mem (a : Word) : (s.jumpTo a).mem = s.mem := rfl
@[simp] theorem State.jumpTo_disp (a : Word) : (s.jumpTo a).disp = s.disp := rfl
@[simp] theorem State.jumpTo_dt (a : Word) : (s.jumpTo a).dt = s.dt := rfl
@[simp] theorem State.jumpTo_halted (a : Word) : (s.jumpTo a).halted = s.halted := rfl
@[simp] theorem State.jumpTo_fault (a : Word) : (s.jumpTo a).fault = s.fault := rfl
@[simp] theorem State.jumpTo_key (a : Word) : (s.jumpTo a).key = s.key := rfl
@[simp] theorem State.jumpTo_rnd (a : Word) : (s.jumpTo a).rnd = s.rnd := rfl
@[simp] theorem State.jumpTo_draws (a : Word) : (s.jumpTo a).draws = s.draws := rfl
@[simp] theorem State.jumpTo_frames (a : Word) : (s.jumpTo a).frames = s.frames := rfl
@[simp] theorem State.jumpTo_host (a : Word) : (s.jumpTo a).host = s.host := rfl
@[simp] theorem State.jumpTo_params (a : Word) : (s.jumpTo a).params = s.params := rfl

/-! ### `State.pulseFrame` -/

@[simp] theorem State.pulseFrame_v : (s.pulseFrame).v = s.v := rfl
@[simp] theorem State.pulseFrame_i : (s.pulseFrame).i = s.i := rfl
@[simp] theorem State.pulseFrame_pc : (s.pulseFrame).pc = s.pc := rfl
@[simp] theorem State.pulseFrame_stack : (s.pulseFrame).stack = s.stack := rfl
@[simp] theorem State.pulseFrame_mem : (s.pulseFrame).mem = s.mem := rfl
@[simp] theorem State.pulseFrame_disp : (s.pulseFrame).disp = s.disp := rfl
@[simp] theorem State.pulseFrame_dt : (s.pulseFrame).dt = s.dt := rfl
@[simp] theorem State.pulseFrame_halted : (s.pulseFrame).halted = s.halted := rfl
@[simp] theorem State.pulseFrame_fault : (s.pulseFrame).fault = s.fault := rfl
@[simp] theorem State.pulseFrame_key : (s.pulseFrame).key = s.key := rfl
@[simp] theorem State.pulseFrame_rnd : (s.pulseFrame).rnd = s.rnd := rfl
@[simp] theorem State.pulseFrame_draws : (s.pulseFrame).draws = s.draws := rfl
@[simp] theorem State.pulseFrame_frames : (s.pulseFrame).frames = s.frames + 1 := rfl
@[simp] theorem State.pulseFrame_host : (s.pulseFrame).host = s.host := rfl
@[simp] theorem State.pulseFrame_params : (s.pulseFrame).params = s.params := rfl

/-! ### `State.consumeRandom` -/

@[simp] theorem State.consumeRandom_v : (s.consumeRandom).v = s.v := rfl
@[simp] theorem State.consumeRandom_i : (s.consumeRandom).i = s.i := rfl
@[simp] theorem State.consumeRandom_pc : (s.consumeRandom).pc = s.pc := rfl
@[simp] theorem State.consumeRandom_stack : (s.consumeRandom).stack = s.stack := rfl
@[simp] theorem State.consumeRandom_mem : (s.consumeRandom).mem = s.mem := rfl
@[simp] theorem State.consumeRandom_disp : (s.consumeRandom).disp = s.disp := rfl
@[simp] theorem State.consumeRandom_dt : (s.consumeRandom).dt = s.dt := rfl
@[simp] theorem State.consumeRandom_halted : (s.consumeRandom).halted = s.halted := rfl
@[simp] theorem State.consumeRandom_fault : (s.consumeRandom).fault = s.fault := rfl
@[simp] theorem State.consumeRandom_key : (s.consumeRandom).key = s.key := rfl
@[simp] theorem State.consumeRandom_rnd : (s.consumeRandom).rnd = none := rfl
@[simp] theorem State.consumeRandom_draws : (s.consumeRandom).draws = s.draws + 1 := rfl
@[simp] theorem State.consumeRandom_frames : (s.consumeRandom).frames = s.frames := rfl
@[simp] theorem State.consumeRandom_host : (s.consumeRandom).host = s.host := rfl
@[simp] theorem State.consumeRandom_params : (s.consumeRandom).params = s.params := rfl

/-! ### `takeFault` -/

@[simp] theorem takeFault_v (c : FaultCause) (w : Word) (a : Nat) : (takeFault c w a s).v = s.v := rfl
@[simp] theorem takeFault_i (c : FaultCause) (w : Word) (a : Nat) : (takeFault c w a s).i = s.i := rfl
@[simp] theorem takeFault_pc (c : FaultCause) (w : Word) (a : Nat) : (takeFault c w a s).pc = s.pc := rfl
@[simp] theorem takeFault_stack (c : FaultCause) (w : Word) (a : Nat) : (takeFault c w a s).stack = s.stack := rfl
@[simp] theorem takeFault_mem (c : FaultCause) (w : Word) (a : Nat) : (takeFault c w a s).mem = s.mem := rfl
@[simp] theorem takeFault_disp (c : FaultCause) (w : Word) (a : Nat) : (takeFault c w a s).disp = s.disp := rfl
@[simp] theorem takeFault_dt (c : FaultCause) (w : Word) (a : Nat) : (takeFault c w a s).dt = s.dt := rfl
@[simp] theorem takeFault_halted (c : FaultCause) (w : Word) (a : Nat) : (takeFault c w a s).halted = true := rfl
@[simp] theorem takeFault_fault (c : FaultCause) (w : Word) (a : Nat) : (takeFault c w a s).fault = ⟨c, s.pc, w, BitVec.ofNat 16 a⟩ := rfl
@[simp] theorem takeFault_key (c : FaultCause) (w : Word) (a : Nat) : (takeFault c w a s).key = s.key := rfl
@[simp] theorem takeFault_rnd (c : FaultCause) (w : Word) (a : Nat) : (takeFault c w a s).rnd = s.rnd := rfl
@[simp] theorem takeFault_draws (c : FaultCause) (w : Word) (a : Nat) : (takeFault c w a s).draws = s.draws := rfl
@[simp] theorem takeFault_frames (c : FaultCause) (w : Word) (a : Nat) : (takeFault c w a s).frames = s.frames := rfl
@[simp] theorem takeFault_host (c : FaultCause) (w : Word) (a : Nat) : (takeFault c w a s).host = s.host := rfl
@[simp] theorem takeFault_params (c : FaultCause) (w : Word) (a : Nat) : (takeFault c w a s).params = s.params := rfl

/-! ### Reading a register -/

/-- Only the register file matters to a register read. -/
theorem State.readV_congr {s t : State} (h : t.v = s.v) (x : Nibble) : t.readV x = s.readV x := by
  simp [State.readV, h]

/-- The last write to a register is what it reads as; other registers keep their value. -/
@[simp] theorem State.readV_writeV (x y : Nibble) (b : Byte) :
    (s.writeV x b).readV y = if x = y then b else s.readV y := by
  simp only [State.readV, State.writeV, Vector.getElem_set, BitVec.toNat_inj]

@[simp] theorem State.readV_advance (x : Nibble) : (s.advance).readV x = s.readV x := rfl
@[simp] theorem State.readV_skipIf (c : Bool) (x : Nibble) : (s.skipIf c).readV x = s.readV x := rfl
@[simp] theorem State.readV_jumpTo (a : Word) (x : Nibble) : (s.jumpTo a).readV x = s.readV x := rfl
@[simp] theorem State.readV_pulseFrame (x : Nibble) : (s.pulseFrame).readV x = s.readV x := rfl
@[simp] theorem State.readV_consumeRandom (x : Nibble) : (s.consumeRandom).readV x = s.readV x := rfl
@[simp] theorem readV_takeFault (c : FaultCause) (w : Word) (a : Nat) (x : Nibble) :
    (takeFault c w a s).readV x = s.readV x := rfl

/-! ### Reading a byte -/

/-- A read goes through the memory operation under the machine's parameters: the form the other lemmas are about. -/
@[simp] theorem State.readByte_eq (a : Nat) : s.readByte a = s.mem.read s.params a := rfl

/-! ### Frames -/

/-- Nothing is touched by doing nothing. -/
theorem Untouched.refl (but : List Part) : Untouched but s s := by
  constructor <;> simp

/-- A register write touches no other part. -/
theorem untouched_writeV (x : Nibble) (b : Byte) : Untouched [] s (s.writeV x b) := by
  constructor <;> simp

/-- A change of `pc` touches no other part. -/
theorem untouched_jumpTo (a : Word) : Untouched [] s (s.jumpTo a) := by
  constructor <;> simp

/-- Frames compose. -/
theorem Untouched.trans {but : List Part} {s t u : State} (h : Untouched but s t) (k : Untouched but t u) :
    Untouched but s u where
  index m := (k.index m).trans (h.index m)
  stack m := (k.stack m).trans (h.stack m)
  memory m a := (k.memory m a).trans (h.memory m a)
  display m := (k.display m).trans (h.display m)
  timer m := (k.timer m).trans (h.timer m)
  faults m := ⟨(k.faults m).1.trans (h.faults m).1, (k.faults m).2.trans (h.faults m).2⟩
  keypad m := (k.keypad m).trans (h.keypad m)
  random m := ⟨(k.random m).1.trans (h.random m).1, (k.random m).2.trans (h.random m).2⟩
  frames m := (k.frames m).trans (h.frames m)
  schedule m := (k.schedule m).trans (h.schedule m)
  params := k.params.trans h.params

/-- A register write keeps every other register. -/
theorem regsKept_writeV (x : Nibble) (b : Byte) : RegsKept [x] s (s.writeV x b) := by
  intro r hr
  rw [State.readV_writeV, if_neg]
  rintro rfl
  exact hr (List.mem_singleton.mpr rfl)

end Sys2Proof.Machine
end

