-- ==== Sys2Proof/Laws/Ops.lean ====
section
/-! SUPPORT. What each shared operation can do, once: the register block, the stack, fetch and decode, the host's actions,
the step. Later proofs cite these and do not unfold the operations. -/

namespace Sys2Proof.Machine

/-! ### The register block (R184, R185) -/

@[simp] theorem State.length_readBlock (s : State) (x : Nibble) : (s.readBlock x).length = x.toNat + 1 := by
  have := x.isLt
  simp only [State.readBlock, List.length_take, Vector.length_toList]
  omega

/-- Byte `k` of the block is `V[k]`. -/
theorem State.getElem?_readBlock (s : State) (x k : Nibble) (h : k ≤ x) : (s.readBlock x)[k.toNat]? = some (s.readV k) := by
  have := k.isLt
  have hk : k.toNat < x.toNat + 1 := Nat.lt_succ_of_le h
  simp only [State.readBlock, List.getElem?_take, hk, if_true, State.readV]
  rw [List.getElem?_eq_getElem (by rw [Vector.length_toList]; omega)]
  simp

/-- Loading bytes from register `k` up: register `j` takes byte `j - k` of the list, if there is one. -/
theorem getElem_loadBlock (k : Nat) (bytes : List Byte) (v : Vector Byte 16) (j : Nat) (hj : j < 16) :
    (loadBlock k bytes v)[j] = if k ≤ j then bytes.getD (j - k) v[j] else v[j] := by
  induction bytes generalizing k v with
  | nil => simp [loadBlock]
  | cons b bs ih =>
    rw [loadBlock, ih]
    by_cases hle : k + 1 ≤ j
    · rw [if_pos hle, if_pos (by omega), show j - k = j - (k + 1) + 1 by omega, List.getD_cons_succ]
      split
      · rw [Vector.getElem_set, if_neg (by omega)]
      · rfl
    · rw [if_neg hle]
      by_cases hk : k = j
      · subst hk
        simp [hj]
      · rw [if_neg (by omega)]
        split
        · rw [Vector.getElem_set, if_neg hk]
        · rfl

/-- After a block load register `j` holds byte `j` of the list, if there is one, and its old value otherwise. -/
@[simp] theorem State.readV_writeBlock (s : State) (bytes : List Byte) (j : Nibble) :
    (s.writeBlock bytes).readV j = bytes.getD j.toNat (s.readV j) := by
  simp [State.readV, State.writeBlock, getElem_loadBlock _ _ _ _ j.isLt]

/-! ### The stack (R14) -/

theorem push_eq (depth : Nat) (r : Word) (stack : List Word) :
    (stack.length < depth ∧ push depth r stack = some (r :: stack)) ∨
      (depth ≤ stack.length ∧ push depth r stack = none) := by
  unfold push
  split
  · exact .inl ⟨‹_›, rfl⟩
  · exact .inr ⟨by omega, rfl⟩

@[simp] theorem pop_nil : pop [] = none := rfl
@[simp] theorem pop_cons (r : Word) (rest : List Word) : pop (r :: rest) = some (r, rest) := rfl

/-! ### Fetch and decode (R81, R82) -/

/-- The three things fetch and decode can do, in the order of R208. -/
theorem fetchDecode_cases (s : State) :
    (s.pc.toNat > 0xFFE ∧ fetchDecode s = .error (takeFault .fetchRange 0 (firstAbove s.pc.toNat) s)) ∨
    (s.pc.toNat ≤ 0xFFE ∧ decodeWord s.wordAtPc = none ∧
      fetchDecode s = .error (takeFault .unknownOpcode s.wordAtPc 0 s)) ∨
    ∃ i, s.pc.toNat ≤ 0xFFE ∧ decodeWord s.wordAtPc = some i ∧ fetchDecode s = .ok i := by
  unfold fetchDecode
  rcases memRead_cases s.params s.mem s.pc.toNat 2 with ⟨hr, h⟩ | ⟨hr, h⟩
  · have hpc : s.pc.toNat ≤ 0xFFE := by
      rcases hr with hr | hr
      · omega
      · simp only [Config.memSize] at hr
        omega
    rw [h]
    have hw : s.mem.read s.params s.pc.toNat ++ s.mem.read s.params (s.pc.toNat + 1) = s.wordAtPc := rfl
    simp only [Memory.readBytes, decode, hw]
    cases hd : decodeWord s.wordAtPc with
    | none => exact .inr (.inl ⟨hpc, rfl, rfl⟩)
    | some i => exact .inr (.inr ⟨i, hpc, rfl, rfl⟩)
  · refine .inl ⟨?_, by rw [h]⟩
    simp only [InRange, Config.memSize, not_or] at hr
    omega

/-! ### The host (R6, R87) -/

/-- With nothing scheduled the step finds the machine as it is. -/
theorem State.afterHost_of_idle {s : State} (h : s.host = []) : s.afterHost = s := by
  simp [State.afterHost, h]

/-- A batch of actions is performed in order. -/
@[simp] theorem State.hostActions_cons (s : State) (a : HostAction) (batch : List HostAction) :
    s.hostActions (a :: batch) = (s.hostAction a).hostActions batch := rfl

@[simp] theorem State.hostActions_nil (s : State) : s.hostActions [] = s := rfl

/-- What holds of a state and is kept by every action holds after a batch. -/
theorem State.hostActions_induction {P : State → Prop} (hstep : ∀ s a, P s → P (s.hostAction a)) (s : State)
    (batch : List HostAction) (h : P s) : P (s.hostActions batch) := by
  induction batch generalizing s with
  | nil => exact h
  | cons a batch ih => exact ih _ (hstep s a h)

/-- Memory after a reset with an image is in canonical form. -/
theorem wf_bootMemory (p : Config.Params) (image : List Byte) : (bootMemory p image).wf p := by
  unfold bootMemory
  split
  · next h =>
    refine Memory.wf_writeBytes p (Memory.wf_nil p) (.inl ?_)
    have : image.length ≤ 3584 := by simpa [imageFits, Config.maxImage] using h
    simp only [Config.progBase, Config.memSize]
    omega
  · exact Memory.wf_nil p

/-! ### The step (R80) -/

/-- Everything a step that answers a next state can have done: executed the fetched instruction, or taken a fault of the
fetch or of the decode. -/
theorem step_next_cases {s t : State} (h : step s = .next t) :
    s.afterHost.halted = false ∧
      ((∃ i, fetchDecode s.afterHost = .ok i ∧ exec i s.afterHost = .next t) ∨
        fetchDecode s.afterHost = .error t) := by
  unfold step at h
  simp only at h
  split at h
  · cases h
  · next hrun =>
    refine ⟨by simpa using hrun, ?_⟩
    split at h
    · next i hi => exact .inl ⟨i, hi, h⟩
    · next u hu =>
      cases h
      exact .inr hu

/-- One more step of a run. -/
theorem core_run_succ (k : Nat) (s : State) :
    Sys2Proof.core.run (k + 1) s = match step s with
      | .next t => Sys2Proof.core.run k t
      | .fault r => .fault r
      | .refused r => .refused r := by
  have h (u : Sys2Proof.core.State) : Sys2Proof.core.run (k + 1) u = match Sys2Proof.core.step u with
      | .next t => Sys2Proof.core.run k t
      | .fault r => .fault r
      | .refused r => .refused r := by
    rw [Host.Core.run]
    cases Sys2Proof.core.step u <;> rfl
  refine (h s).trans ?_
  change (match step s with
    | .next t => _
    | .fault r => _
    | .refused r => _) = _
  cases step s <;> rfl

end Sys2Proof.Machine
end

