-- ==== Sys2Proof/Laws/PerInstr.lean ====
section
/-! SUPPORT. Statements made per instruction. The family `RowOfInstr`: the word of an instruction matches the row of the
opcode map that bears its mnemonic (`30_encoding.md` R64), whatever its operands. -/

namespace Sys2Proof.Laws.RowOfInstr

/-- The encoded word of the instruction is matched by the row of its mnemonic. -/
def Statement (i : Instr) : Prop :=
  ∃ row ∈ opcodeTable, row.mnemonic = i.mnemonic ∧ encode i &&& row.mask = row.value

/-- The mask of a family-only row keeps the family. -/
theorem mask_family (op x : Nibble) (nn : Byte) :
    BitVec.and (n := 16) (op ++ x ++ nn) 0xF000 = op ++ (0 : Nibble) ++ (0 : Byte) := by
  refine BitVec.eq_of_getLsbD_eq fun i hi => ?_
  rw [show BitVec.and (n := 16) (op ++ x ++ nn) 0xF000 = (op ++ x ++ nn : Word) &&& 0xF000 from rfl,
    BitVec.getLsbD_and, getLsbD_xi, getLsbD_xi]
  interval_cases i <;> simp

/-- The same for a word written with its 12-bit address. -/
theorem mask_address (op : Nibble) (nnn : Addr12) :
    BitVec.and (n := 16) (op ++ nnn) 0xF000 = op ++ (0 : Addr12) := by
  refine BitVec.eq_of_getLsbD_eq fun i hi => ?_
  rw [show BitVec.and (n := 16) (op ++ nnn) 0xF000 = (op ++ nnn : Word) &&& 0xF000 from rfl,
    BitVec.getLsbD_and, getLsbD_a, getLsbD_a]
  interval_cases i <;> simp

/-- The mask of a family and low nibble keeps both. -/
theorem mask_nibble (op x y n : Nibble) :
    BitVec.and (n := 16) (op ++ x ++ y ++ n) 0xF00F = op ++ (0 : Nibble) ++ (0 : Nibble) ++ n := by
  refine BitVec.eq_of_getLsbD_eq fun i hi => ?_
  rw [show BitVec.and (n := 16) (op ++ x ++ y ++ n) 0xF00F = (op ++ x ++ y ++ n : Word) &&& 0xF00F from rfl,
    BitVec.getLsbD_and, getLsbD_xyn, getLsbD_xyn]
  interval_cases i <;> simp

/-- The mask of a family written with three nibbles keeps the family. -/
theorem mask_family_xyn (op x y n : Nibble) :
    BitVec.and (n := 16) (op ++ x ++ y ++ n) 0xF000 = op ++ (0 : Nibble) ++ (0 : Nibble) ++ (0 : Nibble) := by
  refine BitVec.eq_of_getLsbD_eq fun i hi => ?_
  rw [show BitVec.and (n := 16) (op ++ x ++ y ++ n) 0xF000 = (op ++ x ++ y ++ n : Word) &&& 0xF000 from rfl,
    BitVec.getLsbD_and, getLsbD_xyn, getLsbD_xyn]
  interval_cases i <;> simp

/-- The mask of a family and low byte keeps both. -/
theorem mask_byte (op x : Nibble) (nn : Byte) :
    BitVec.and (n := 16) (op ++ x ++ nn) 0xF0FF = op ++ (0 : Nibble) ++ nn := by
  refine BitVec.eq_of_getLsbD_eq fun i hi => ?_
  rw [show BitVec.and (n := 16) (op ++ x ++ nn) 0xF0FF = (op ++ x ++ nn : Word) &&& 0xF0FF from rfl,
    BitVec.getLsbD_and, getLsbD_xi, getLsbD_xi]
  interval_cases i <;> simp

theorem cls : Statement .cls := ⟨⟨"CLS", 0xFFFF, 0x00E0⟩, by decide, rfl, rfl⟩
theorem ret : Statement .ret := ⟨⟨"RET", 0xFFFF, 0x00EE⟩, by decide, rfl, rfl⟩
theorem jp (nnn : Addr12) : Statement (.jp nnn) := ⟨⟨"JP", 0xF000, 0x1000⟩, by decide, rfl, mask_address 1 nnn⟩
theorem call (nnn : Addr12) : Statement (.call nnn) := ⟨⟨"CALL", 0xF000, 0x2000⟩, by decide, rfl, mask_address 2 nnn⟩
theorem seImm (x : Nibble) (nn : Byte) : Statement (.seImm x nn) :=
  ⟨⟨"SE_IMM", 0xF000, 0x3000⟩, by decide, rfl, mask_family 3 x nn⟩
theorem sneImm (x : Nibble) (nn : Byte) : Statement (.sneImm x nn) :=
  ⟨⟨"SNE_IMM", 0xF000, 0x4000⟩, by decide, rfl, mask_family 4 x nn⟩
theorem seReg (x y : Nibble) : Statement (.seReg x y) :=
  ⟨⟨"SE_REG", 0xF00F, 0x5000⟩, by decide, rfl, mask_nibble 5 x y 0⟩
theorem ldImm (x : Nibble) (nn : Byte) : Statement (.ldImm x nn) :=
  ⟨⟨"LD_IMM", 0xF000, 0x6000⟩, by decide, rfl, mask_family 6 x nn⟩
theorem addImm (x : Nibble) (nn : Byte) : Statement (.addImm x nn) :=
  ⟨⟨"ADD_IMM", 0xF000, 0x7000⟩, by decide, rfl, mask_family 7 x nn⟩
theorem ldReg (x y : Nibble) : Statement (.ldReg x y) :=
  ⟨⟨"LD_REG", 0xF00F, 0x8000⟩, by decide, rfl, mask_nibble 8 x y 0⟩
theorem andReg (x y : Nibble) : Statement (.andReg x y) :=
  ⟨⟨"AND", 0xF00F, 0x8002⟩, by decide, rfl, mask_nibble 8 x y 2⟩
theorem xorReg (x y : Nibble) : Statement (.xorReg x y) :=
  ⟨⟨"XOR", 0xF00F, 0x8003⟩, by decide, rfl, mask_nibble 8 x y 3⟩
theorem addReg (x y : Nibble) : Statement (.addReg x y) :=
  ⟨⟨"ADD_REG", 0xF00F, 0x8004⟩, by decide, rfl, mask_nibble 8 x y 4⟩
theorem sub (x y : Nibble) : Statement (.sub x y) :=
  ⟨⟨"SUB", 0xF00F, 0x8005⟩, by decide, rfl, mask_nibble 8 x y 5⟩
theorem shr (x y : Nibble) : Statement (.shr x y) :=
  ⟨⟨"SHR", 0xF00F, 0x8006⟩, by decide, rfl, mask_nibble 8 x y 6⟩
theorem sneReg (x y : Nibble) : Statement (.sneReg x y) :=
  ⟨⟨"SNE_REG", 0xF00F, 0x9000⟩, by decide, rfl, mask_nibble 9 x y 0⟩
theorem ldI (nnn : Addr12) : Statement (.ldI nnn) := ⟨⟨"LD_I", 0xF000, 0xA000⟩, by decide, rfl, mask_address 10 nnn⟩
theorem rnd (x : Nibble) (nn : Byte) : Statement (.rnd x nn) :=
  ⟨⟨"RND", 0xF000, 0xC000⟩, by decide, rfl, mask_family 12 x nn⟩
theorem drw (x y n : Nibble) : Statement (.drw x y n) :=
  ⟨⟨"DRW", 0xF000, 0xD000⟩, by decide, rfl, mask_family_xyn 13 x y n⟩
theorem skp (x : Nibble) : Statement (.skp x) := ⟨⟨"SKP", 0xF0FF, 0xE09E⟩, by decide, rfl, mask_byte 14 x 0x9E⟩
theorem sknp (x : Nibble) : Statement (.sknp x) := ⟨⟨"SKNP", 0xF0FF, 0xE0A1⟩, by decide, rfl, mask_byte 14 x 0xA1⟩
theorem ldVxDt (x : Nibble) : Statement (.ldVxDt x) :=
  ⟨⟨"LD_VX_DT", 0xF0FF, 0xF007⟩, by decide, rfl, mask_byte 15 x 0x07⟩
theorem ldVxK (x : Nibble) : Statement (.ldVxK x) := ⟨⟨"LD_VX_K", 0xF0FF, 0xF00A⟩, by decide, rfl, mask_byte 15 x 0x0A⟩
theorem ldDtVx (x : Nibble) : Statement (.ldDtVx x) :=
  ⟨⟨"LD_DT_VX", 0xF0FF, 0xF015⟩, by decide, rfl, mask_byte 15 x 0x15⟩
theorem ldStVx (x : Nibble) : Statement (.ldStVx x) :=
  ⟨⟨"LD_ST_VX", 0xF0FF, 0xF018⟩, by decide, rfl, mask_byte 15 x 0x18⟩
theorem addI (x : Nibble) : Statement (.addI x) := ⟨⟨"ADD_I", 0xF0FF, 0xF01E⟩, by decide, rfl, mask_byte 15 x 0x1E⟩
theorem ldF (x : Nibble) : Statement (.ldF x) := ⟨⟨"LD_F", 0xF0FF, 0xF029⟩, by decide, rfl, mask_byte 15 x 0x29⟩
theorem ldB (x : Nibble) : Statement (.ldB x) := ⟨⟨"LD_B", 0xF0FF, 0xF033⟩, by decide, rfl, mask_byte 15 x 0x33⟩
theorem stRegs (x : Nibble) : Statement (.stRegs x) :=
  ⟨⟨"ST_REGS", 0xF0FF, 0xF055⟩, by decide, rfl, mask_byte 15 x 0x55⟩
theorem ldRegs (x : Nibble) : Statement (.ldRegs x) :=
  ⟨⟨"LD_REGS", 0xF0FF, 0xF065⟩, by decide, rfl, mask_byte 15 x 0x65⟩

end Sys2Proof.Laws.RowOfInstr
end

