-- ==== Sys2Proof/Tests/Slice0.lean ====
section
/-! SUPPORT. The model's own tests. Expected results are the spec's: its encodings (spec/opcode_table.json) and the vectors
of `95_test_vectors.md`, named in the docstrings. After them, for each obligation with hypotheses, witnesses that meet
them together. -/

namespace Sys2Proof.Tests

open Sys2Proof Sys2Proof.Machine

/-- The state one step after `s`, with the word `w` placed where the step fetches; none when the step stops. -/
def after (w : Nat) (s : State) : Option State :=
  match step (s.withFetchWord 16 w) with
  | .next t => some t
  | .fault _ => none
  | .refused _ => none

/-- The state a result answers; `d` when it answers none. -/
def ran (d : State) : Result → State
  | .next t => t
  | .fault _ => d
  | .refused _ => d

/-- Reset with `I`, and bytes stored at `I`. -/
def atI (i : Word) (bytes : List Byte) : State :=
  { State.reset with i := i, mem := State.reset.mem.writeBytes defaultParams i.toNat bytes }

/-- Reset with two registers set. -/
def regs (x : Nibble) (a : Byte) (y : Nibble) (b : Byte) : State := (State.reset.writeV x a).writeV y b

/-- Reset with two bytes stored at a program counter. -/
def atPc (pc : Word) (bytes : List Byte) : State :=
  { State.reset with pc := pc, mem := State.reset.mem.writeBytes defaultParams pc.toNat bytes }

/-! ### Well-formedness: each check refuses an ill-formed term -/

theorem test_image_of_3584_bytes_fits : imageFits (List.replicate 3584 0) = true := by decide +kernel
theorem test_image_of_3585_bytes_refused : imageFits (List.replicate 3585 0) = false := by decide +kernel
theorem test_reset_with_long_image_refused : (HostAction.reset (List.replicate 3585 0)).wf = false := by decide +kernel
theorem test_schedule_with_long_image_refused :
    scheduleWf [[.tick], [.setKey (some 3), .reset (List.replicate 3585 0)]] = false := by decide +kernel
/-- Parameters are legal with a stack of one entry, and not with none or with another glyph 0. -/
theorem test_params_wf : defaultParams.wf = true ∧ { defaultParams with stackDepth := 1 }.wf = true := by decide
theorem test_params_without_stack_refused : { defaultParams with stackDepth := 0 }.wf = false := by decide
theorem test_params_with_other_glyph0_refused :
    { defaultParams with fontTable := Vector.replicate 80 0 }.wf = false := by decide
theorem test_schedule_wf : scheduleWf [[.tick], [.setKey none, .supplyRandom 7], [.reset [0x12, 0x00]]] = true := by decide

/-! ### Decoding: one word of every row, from the table's encoding column -/

theorem test_decode_cls : decodeTableWord 16 0x00E0 = some .cls := by decide
theorem test_decode_ret : decodeTableWord 16 0x00EE = some .ret := by decide
theorem test_decode_jp : decodeTableWord 16 0x1ABC = some (.jp 0xABC) := by decide
theorem test_decode_call : decodeTableWord 16 0x2FED = some (.call 0xFED) := by decide
theorem test_decode_se_imm : decodeTableWord 16 0x35C7 = some (.seImm 5 0xC7) := by decide
theorem test_decode_sne_imm : decodeTableWord 16 0x4A03 = some (.sneImm 0xA 0x03) := by decide
theorem test_decode_se_reg : decodeTableWord 16 0x5120 = some (.seReg 1 2) := by decide
theorem test_decode_ld_imm : decodeTableWord 16 0x6A7E = some (.ldImm 0xA 0x7E) := by decide
theorem test_decode_add_imm : decodeTableWord 16 0x7005 = some (.addImm 0 0x05) := by decide
theorem test_decode_ld_reg : decodeTableWord 16 0x8120 = some (.ldReg 1 2) := by decide
theorem test_decode_and : decodeTableWord 16 0x8122 = some (.andReg 1 2) := by decide
theorem test_decode_xor : decodeTableWord 16 0x8123 = some (.xorReg 1 2) := by decide
theorem test_decode_add_reg : decodeTableWord 16 0x8F24 = some (.addReg 0xF 2) := by decide
theorem test_decode_sub : decodeTableWord 16 0x81F5 = some (.sub 1 0xF) := by decide
theorem test_decode_shr : decodeTableWord 16 0x8126 = some (.shr 1 2) := by decide
theorem test_decode_sne_reg : decodeTableWord 16 0x9AB0 = some (.sneReg 0xA 0xB) := by decide
theorem test_decode_ld_i : decodeTableWord 16 0xA300 = some (.ldI 0x300) := by decide
theorem test_decode_rnd : decodeTableWord 16 0xC30F = some (.rnd 3 0x0F) := by decide
theorem test_decode_drw : decodeTableWord 16 0xD125 = some (.drw 1 2 5) := by decide
theorem test_decode_skp : decodeTableWord 16 0xE49E = some (.skp 4) := by decide
theorem test_decode_sknp : decodeTableWord 16 0xE4A1 = some (.sknp 4) := by decide
theorem test_decode_ld_vx_dt : decodeTableWord 16 0xF207 = some (.ldVxDt 2) := by decide
theorem test_decode_ld_vx_k : decodeTableWord 16 0xF30A = some (.ldVxK 3) := by decide
theorem test_decode_ld_dt_vx : decodeTableWord 16 0xF215 = some (.ldDtVx 2) := by decide
theorem test_decode_ld_st_vx : decodeTableWord 16 0xF518 = some (.ldStVx 5) := by decide
theorem test_decode_add_i : decodeTableWord 16 0xFF1E = some (.addI 0xF) := by decide
theorem test_decode_ld_f : decodeTableWord 16 0xF329 = some (.ldF 3) := by decide
theorem test_decode_ld_b : decodeTableWord 16 0xF033 = some (.ldB 0) := by decide
theorem test_decode_st_regs : decodeTableWord 16 0xF255 = some (.stRegs 2) := by decide
theorem test_decode_ld_regs : decodeTableWord 16 0xF465 = some (.ldRegs 4) := by decide

/-- The illegal words the vectors name (V-CF-27 to V-CF-32, V-ALU-36 to V-ALU-38, V-KEY-18 to V-KEY-20). -/
theorem test_illegal_words : [0x5121, 0x912F, 0xB200, 0x0000, 0x0123, 0x01E0, 0x8121, 0x8127, 0x812E, 0xE49F, 0xF3FF,
    0xF075].map (decodeTableWord 16) = List.replicate 12 none := by decide

/-- The assembler spellings of `30_encoding.md` R68. -/
theorem test_assembly : [Instr.cls, .jp 0x204, .ldImm 0 0xFE, .drw 0 1 2, .stRegs 0].map Instr.assembly =
    ["CLS", "JP 0x204", "LD V0, 0xFE", "DRW V0, V1, 2", "LD [I], V0"] := by decide

/-! ### Control flow -/

/-- V-CF-1. -/
theorem test_jp : (after 0x1ABC State.reset).map (·.pc) = some 0x0ABC := by decide
/-- V-CF-5: the newest entry is popped. -/
theorem test_ret : (after 0x00EE { State.reset with pc := 0x300, stack := [0x212, 0x206] }).map
    (fun t => (t.pc, t.stack)) = some (0x212, [0x206]) := by decide
/-- V-CF-6. -/
theorem test_ret_empty : (after 0x00EE State.reset).map (fun t => (t.halted, t.fault, t.pc)) =
    some (true, ⟨.stackUnderflow, 0x200, 0x00EE, 0⟩, 0x200) := by decide
/-- V-CF-8: the 16th entry fits. -/
theorem test_call_last : (after 0x2300 { State.reset with stack := List.replicate 15 0x202 }).map
    (fun t => (t.pc, t.stack, t.halted)) = some (0x300, List.replicate 16 0x202, false) := by decide
/-- V-CF-7: the 17th does not. -/
theorem test_call_full : (after 0x2300 { State.reset with stack := List.replicate 16 0x202 }).map
    (fun t => (t.pc, t.sp, t.fault)) = some (0x200, 16, ⟨.stackOverflow, 0x200, 0x2300, 0⟩) := by decide
/-- P8b with another STACK_DEPTH `D`: the fault comes at call `D` + 1. -/
theorem test_call_depth_one : [[], [0x202]].map (fun stack =>
    (after 0x2200 { State.resetWith { defaultParams with stackDepth := 1 } with stack := stack }).map (·.fault.cause)) =
      [some .none, some .stackOverflow] := by decide
/-- The codes of R200. -/
theorem test_fault_codes : [FaultCause.none, .unknownOpcode, .stackUnderflow, .stackOverflow, .fetchRange, .dataRange].map
    FaultCause.code = [0, 1, 2, 3, 4, 5] := by decide
/-- V-CF-9, V-CF-10. -/
theorem test_se_imm : [0x3005, 0x3006].map (fun w => (after w (State.reset.writeV 0 5)).map (·.pc)) =
    [some 0x204, some 0x202] := by decide
/-- V-CF-11, V-CF-12. -/
theorem test_sne_imm : [0x4005, 0x4006].map (fun w => (after w (State.reset.writeV 0 5)).map (·.pc)) =
    [some 0x202, some 0x204] := by decide
/-- V-CF-13, V-CF-14. -/
theorem test_se_reg : [0x2A, 0x2B].map (fun b => (after 0x5120 (regs 1 0x2A 2 b)).map (·.pc)) =
    [some 0x204, some 0x202] := by decide
/-- V-CF-16, V-CF-17. -/
theorem test_sne_reg : [0x2B, 0x2A].map (fun b => (after 0x9120 (regs 1 0x2A 2 b)).map (·.pc)) =
    [some 0x204, some 0x202] := by decide
/-- V-CF-22, V-CF-25, V-CF-26: the address reported. -/
theorem test_fetch_out_of_range : [0x0FFF, 0x1002, 0x1000].map
    (fun pc => (ran State.reset (step { State.reset with pc := pc })).fault) =
      [⟨.fetchRange, 0x0FFF, 0, 0x1000⟩, ⟨.fetchRange, 0x1002, 0, 0x1002⟩, ⟨.fetchRange, 0x1000, 0, 0x1000⟩] := by decide
/-- V-CF-33: an odd program counter. -/
theorem test_odd_pc : (after 0x1205 { State.reset with pc := 0x201 }).map (·.pc) = some 0x205 := by decide

/-! ### Load and ALU -/

/-- V-ALU-2. -/
theorem test_ld_imm : (after 0x6F33 State.reset).map (fun t => (t.readV vf, t.pc)) = some (0x33, 0x202) := by decide
/-- V-ALU-3. -/
theorem test_add_imm : (after 0x7005 (regs 0 0xFE vf 7)).map (fun t => (t.readV 0, t.readV vf)) = some (3, 7) := by decide
/-- V-ALU-5. -/
theorem test_ld_reg : (after 0x8120 (regs 1 0x11 2 0x7E)).map (fun t => (t.readV 1, t.readV 2)) = some (0x7E, 0x7E) := by
  decide
/-- V-ALU-6. -/
theorem test_and : (after 0x8122 (regs 1 0xCC 2 0xAA)).map (fun t => (t.readV 1, t.readV vf)) = some (0x88, 0) := by decide
/-- V-ALU-7. -/
theorem test_xor : (after 0x8123 (regs 1 0xCC 2 0xAA)).map (fun t => (t.readV 1, t.readV vf)) = some (0x66, 0) := by decide
/-- V-ALU-8: no carry clears a stale flag. -/
theorem test_add_reg_no_carry : (after 0x8124 ((regs 1 0xF0 2 5).writeV vf 7)).map (fun t => (t.readV 1, t.readV vf)) =
    some (0xF5, 0) := by decide
/-- V-ALU-12: the flag replaces the sum in VF. -/
theorem test_add_reg_vf : (after 0x8F24 (regs vf 0xF0 2 0x20)).map (fun t => (t.readV vf, t.pc)) = some (1, 0x202) := by
  decide
/-- V-ALU-9: under the parameter's other value VF stays. -/
theorem test_add_reg_keep : (after 0x8124 ((((State.resetWith { defaultParams with addVfNoCarry := .keep }).writeV 1
    0xF0).writeV 2 5).writeV vf 7)).map (fun t => (t.readV 1, t.readV vf)) = some (0xF5, 7) := by decide
/-- V-ALU-17, V-ALU-19, V-ALU-21. -/
theorem test_sub : [(0x10, 0x20), (0x33, 0x33), (0xFF, 0x01)].map
    (fun p => (after 0x8125 (regs 1 p.1 2 p.2)).map (fun t => (t.readV 1, t.readV vf))) =
      [some (0xF0, 0), some (0, 1), some (0xFE, 1)] := by decide
/-- V-ALU-24: the old VF is the operand. -/
theorem test_sub_vf_operand : (after 0x81F5 (regs 1 0x10 vf 2)).map (fun t => (t.readV 1, t.readV vf)) =
    some (0x0E, 1) := by decide
/-- V-ALU-26: both registers are written. -/
theorem test_shr : (after 0x8126 (regs 1 0xAA 2 5)).map (fun t => (t.readV 1, t.readV 2, t.readV vf)) =
    some (2, 2, 1) := by decide
/-- V-ALU-30: the result replaces the flag. -/
theorem test_shr_vf : (after 0x8F26 (regs 2 5 vf 0)).map (fun t => (t.readV 2, t.readV vf)) = some (2, 2) := by decide
/-- V-ALU-33, the draw presented by the host. -/
theorem test_rnd : (after 0xC30F { State.reset with rnd := some 0xB7 }).map (fun t => (t.readV 3, t.rnd)) =
    some (7, none) := by decide

/-! ### Display -/

/-- The lit pixels, as (row, column). -/
def lit (d : Display) : List (Nat × Nat) :=
  (List.range 32).flatMap fun r => (List.range 64).filterMap fun c =>
    if d.pixel (Fin.ofNat 32 r) (Fin.ofNat 64 c) then some (r, c) else none

/-- V-DSP-1. -/
theorem test_cls : (after 0x00E0 { State.reset with disp := (State.reset.disp.toggle 0 0).toggle 31 63 }).map
    (fun t => (lit t.disp, t.readV vf, t.frames)) = some ([], 0, 1) := by decide +kernel
/-- V-DSP-7: both axes wrap, bit by bit. -/
theorem test_drw_wraps : (after 0xD011 ((((atI 0x300 [0xC0]).writeV 0 0xFF).writeV 1 0xFF).writeV vf 1)).map
    (fun t => (lit t.disp, t.readV vf)) = some ([(31, 0), (31, 63)], 0) := by decide +kernel
/-- V-DSP-14: one bit collides, one does not. -/
theorem test_drw_collides : (after 0xD011 { atI 0x300 [0xC0] with disp := State.reset.disp.toggle 0 0 }).map
    (fun t => (lit t.disp, t.readV vf)) = some ([(0, 1)], 1) := by decide +kernel
/-- V-DSP-10: nothing is drawn and VF is kept. -/
theorem test_drw_out_of_range : (after 0xD003 ((atI 0xFFE [0x80, 0x80]).writeV vf 7)).map
    (fun t => (t.readV vf, t.fault, t.frames)) = some (7, ⟨.dataRange, 0x200, 0xD003, 0x1000⟩, 0) := by decide

/-! ### Keypad and timer -/

/-- Reset with V4 and the key state. -/
def keyed (b : Byte) (key : Option Nibble) : State := { State.reset.writeV 4 b with key := key }

/-- V-KEY-1, V-KEY-2, V-KEY-3, V-KEY-7, V-KEY-9. -/
theorem test_skp : [keyed 0x0A (some 0xA), keyed 0x0A none, keyed 0x0A (some 3), keyed 0x1A (some 0xA),
    keyed 0 (some 0)].map (fun s => (after 0xE49E s).map (·.pc)) =
      [some 0x204, some 0x202, some 0x202, some 0x202, some 0x204] := by decide
/-- V-KEY-4, V-KEY-5, V-KEY-6, V-KEY-8. -/
theorem test_sknp : [keyed 0x0A (some 0xA), keyed 0x0A none, keyed 0x0A (some 3), keyed 0x1A (some 0xA)].map
    (fun s => (after 0xE4A1 s).map (·.pc)) = [some 0x202, some 0x204, some 0x204, some 0x204] := by decide
/-- V-KEY-10: the whole state is as before. -/
theorem test_ld_vx_k_holds : after 0xF30A (State.reset.writeV 3 0x55) =
    some ((State.reset.writeV 3 0x55).withFetchWord 16 0xF30A) := by decide +kernel
/-- V-KEY-11. -/
theorem test_ld_vx_k : (after 0xF30A { State.reset with key := some 7 }).map (fun t => (t.readV 3, t.pc, t.key)) =
    some (7, 0x202, some 7) := by decide
/-- V-KEY-14. -/
theorem test_ld_vx_dt : (after 0xF207 { State.reset with dt := 0x3C }).map (fun t => (t.readV 2, t.dt)) =
    some (0x3C, 0x3C) := by decide
/-- V-KEY-15. -/
theorem test_ld_dt_vx : (after 0xF215 (State.reset.writeV 2 0x3C)).map (fun t => (t.dt, t.pc)) = some (0x3C, 0x202) := by
  decide
/-- V-KEY-17: nothing but `pc`. -/
theorem test_ld_st_vx : after 0xF518 { State.reset.writeV 5 0xFF with dt := 9 } =
    some { ({ State.reset.writeV 5 0xFF with dt := 9 }).withFetchWord 16 0xF518 with pc := 0x202 } := by decide +kernel
/-- V-TICK-1, V-TICK-2, V-TICK-3. -/
theorem test_ticks : [2, 1, 0].map (fun d => ({ State.reset with dt := d }.hostAction .tick).dt) = [1, 0, 0] := by decide

/-! ### Index and memory -/

/-- V-MEM-1b. -/
theorem test_ld_i : (after 0xAFFF { State.reset with i := 0x1234 }).map (·.i) = some 0x0FFF := by decide
/-- V-MEM-2b, V-MEM-2c: no wrap at 12 bits, a wrap at 16. -/
theorem test_add_i : [0x0FFF, 0xFFFF].map (fun i => (after 0xF21E { State.reset.writeV 2 1 with i := i }).map
    (fun t => (t.i, t.readV vf))) = [some (0x1000, 0), some (0, 0)] := by decide
/-- V-MEM-3, V-MEM-3d: the whole register. -/
theorem test_ld_f : [0x0A, 0xFF].map (fun b => (after 0xF329 (State.reset.writeV 3 b)).map (·.i)) =
    [some 0x32, some 0x4FB] := by decide
/-- V-MEM-4d: the highest base in range. -/
theorem test_ld_b : (after 0xF033 { State.reset.writeV 0 123 with i := 0xFFD }).map
    (fun t => (t.mem.readBytes t.params 0xFFC 4, t.halted, t.i)) = some ([0, 1, 2, 3], false, 0xFFD) := by decide
/-- V-MEM-4e: nothing is stored, not even the bytes in range. -/
theorem test_ld_b_out_of_range : (after 0xF033 { State.reset.writeV 0 123 with i := 0xFFE }).map
    (fun t => (t.mem.readBytes t.params 0xFFE 2, t.fault)) = some ([0, 0], ⟨.dataRange, 0x200, 0xF033, 0x1000⟩) := by decide
/-- V-MEM-5: V3 is not stored. -/
theorem test_st_regs : (after 0xF255 { (((State.reset.writeV 0 0x11).writeV 1 0x22).writeV 2 0x33).writeV 3 0x44 with
    i := 0x400 }).map (fun t => (t.mem.readBytes t.params 0x400 4, t.i)) = some ([0x11, 0x22, 0x33, 0], 0x403) := by decide
/-- V-MEM-5c: nothing is stored and `I` stays. -/
theorem test_st_regs_out_of_range : (after 0xF155 { regs 0 0x11 1 0x22 with i := 0xFFF }).map
    (fun t => (t.readByte 0xFFF, t.i, t.fault)) = some (0, 0xFFF, ⟨.dataRange, 0x200, 0xF155, 0x1000⟩) := by decide
/-- V-MEM-6: V3 is not loaded and `I` stays. -/
theorem test_ld_regs : (after 0xF265 ((atI 0x300 [2, 5, 4, 0x99]).writeV 3 0x77)).map
    (fun t => ([0, 1, 2, 3].map t.readV, t.i)) = some ([2, 5, 4, 0x77], 0x300) := by decide
/-- V-MEM-6b: glyph 0 of the font table, the source's bytes. -/
theorem test_ld_regs_font : (after 0xF465 State.reset).map (fun t => [0, 1, 2, 3, 4].map t.readV) =
    some [0xF0, 0x90, 0x90, 0x90, 0xF0] := by decide

/-! ### Memory as data, the host, the halted machine -/

/-- The font a machine is given is the font it has after reset (R7, R43). -/
theorem test_font_table_is_an_argument :
    (State.resetWith { defaultParams with fontTable := fontTable.set 5 0xAA }).mem.readBytes
      { defaultParams with fontTable := fontTable.set 5 0xAA } 4 3 = [0xF0, 0xAA, 0x60] := by decide
/-- The bytes of V-RST-4. -/
theorem test_font_table : (State.reset.mem.readBytes defaultParams 75 5,
    State.reset.mem.readBytes defaultParams 35 5, fontTable.toList.length) =
    ([0xF0, 0x80, 0xF0, 0x80, 0x80], [0xF0, 0x10, 0x20, 0x40, 0x40], 80) := by decide
/-- Reset memory after a byte is written and taken back, another is written, and a font byte is written as it was. -/
def rewritten : Memory :=
  let p := defaultParams
  (((State.reset.mem.write p 0x300 5).write p 0x205 1).write p 0x300 0).write p 0 0xF0

/-- Writing what an unlisted address reads as lists nothing. -/
theorem test_write_reset_byte : rewritten =
    [(0x205, 1)] := by decide
/-- V-FLT-1: a halted machine takes no step. -/
theorem test_halted_takes_no_step : after 0x00EE State.reset ≠ none ∧
    (match step { State.reset with halted := true, fault := ⟨.stackUnderflow, 0x200, 0x00EE, 0⟩ } with
      | .fault (.halted .stackUnderflow) => true
      | _ => false) = true := by decide +kernel
/-- V-FLT-2: reset leaves the halted state, and the program bytes are gone. -/
theorem test_reset_of_halted : ({ State.reset with halted := true, pc := 7, mem := [(0x200, 1)] }.hostAction (.reset [])) =
    State.reset := by decide +kernel
/-- The image of a reset is placed at 0x200 and runs: the first step of program P1. -/
theorem test_boot_runs : (match step { State.reset with host := [[.reset [0x60, 0x05, 0x70, 0x03]]] } with
    | .next t => (t.readV 0, t.pc)
    | _ => (0, 0)) = (5, 0x202) := by decide

/-! ### Witnesses: states and operands that meet all the hypotheses of an obligation together -/

/-- A running state away from reset: two return addresses, a listed byte, a program of two words at `pc`. -/
def busy : State :=
  { atPc 0x300 [0x70, 0x01, 0x13, 0x02] with
    stack := [0x1000, 0x206], i := 0x0FFF, dt := 3, key := some 0xF, host := [[.tick], [.setKey none]] }

/-- A full stack. -/
def full : State := { State.reset with stack := List.replicate 16 0x202 }

theorem witness_EncodeOfDecodeIsTheBytes : decode [0x12, 0x34, 0x56] = .ok (.jp 0x234, [0x56]) := by rfl

theorem witness_WordSelectsItsRow : ⟨"SHR", 0xF00F, 0x8006⟩ ∈ opcodeTable ∧ 0x8FF6#16 &&& 0xF00F = 0x8006 ∧
    decodeWord 0x8FF6 = some (.shr 0xF 0xF) ∧ (Instr.shr 0xF 0xF).mnemonic = "SHR" := by decide

/-- With a batch scheduled, at the highest address an instruction can be fetched from. -/
theorem witness_StepRunsDecodedInstruction :
    let s := { atPc 0xFFE [0x30, 0x00] with host := [[.tick]] }
    s.afterHost.halted = false ∧ s.afterHost.pc.toNat ≤ 0xFFE ∧
      decode [s.afterHost.readByte s.afterHost.pc.toNat, s.afterHost.readByte (s.afterHost.pc.toNat + 1)] =
        .ok (.seImm 0 0, []) := ⟨rfl, by decide, rfl⟩

theorem witness_StepRunsDecodedInstruction_idle : State.reset.host = [] := rfl

/-- Two batches scheduled: the order inside the first one shows, and the second stays. -/
theorem witness_StepRunsDecodedInstruction_schedule :
    let s := { State.reset with dt := 2, host := [[.tick, .setKey (some 3), .setKey none], [.tick]] }
    s.host = [.tick, .setKey (some 3), .setKey none] :: [[.tick]] ∧ s.afterHost.dt = 1 ∧ s.afterHost.key = none ∧
      s.afterHost.host = [[.tick]] := by decide

theorem witness_FetchOutOfRangeFaults : [0x0FFF, 0x1000, 0xFFFF].all fun pc =>
    let s := { State.reset with pc := pc }
    !s.afterHost.halted && decide (s.afterHost.pc.toNat > 0xFFE) := by decide

theorem witness_UnknownOpcodeFaults : State.reset.afterHost.halted = false ∧ State.reset.afterHost.pc.toNat ≤ 0xFFE ∧
    decodeWord State.reset.afterHost.wordAtPc = none := by decide

theorem witness_StepAnswersUnlessHalted : State.reset.afterHost.halted = false ∧
    { State.reset with halted := true }.afterHost.halted = true := by decide

/-- A step from `s` halts with this cause. -/
def HaltsWith (s : State) (c : FaultCause) : Prop :=
  s.afterHost.halted = false ∧ ∃ t, step s = .next t ∧ t.halted = true ∧ t.fault.cause = c

theorem witness_FaultsArePrecise_fetch : HaltsWith { State.reset with pc := 0xFFF } .fetchRange :=
  ⟨rfl, ran State.reset (step { State.reset with pc := 0xFFF }), rfl, rfl, rfl⟩
theorem witness_FaultsArePrecise_decode : HaltsWith State.reset .unknownOpcode :=
  ⟨rfl, ran State.reset (step State.reset), rfl, rfl, rfl⟩
theorem witness_FirstFaultIsReported_ret : HaltsWith (atPc 0x200 [0x00, 0xEE]) .stackUnderflow :=
  ⟨rfl, ran State.reset (step (atPc 0x200 [0x00, 0xEE])), rfl, rfl, rfl⟩
theorem witness_FirstFaultIsReported_call :
    HaltsWith { atPc 0x200 [0x22, 0x00] with stack := List.replicate 16 0x202 } .stackOverflow :=
  ⟨rfl, ran State.reset (step { atPc 0x200 [0x22, 0x00] with stack := List.replicate 16 0x202 }), rfl, rfl, rfl⟩
theorem witness_FirstFaultIsReported_data : HaltsWith { atPc 0x200 [0xF0, 0x65] with i := 0x1000 } .dataRange :=
  ⟨rfl, ran State.reset (step { atPc 0x200 [0xF0, 0x65] with i := 0x1000 }), rfl, rfl, rfl⟩

theorem witness_HaltedMachineTakesNoStep :
    let s := { State.reset with
      halted := true, fault := ⟨.unknownOpcode, 0x200, 0, 0⟩, host := [[.tick, .setKey none, .supplyRandom 1], [.reset []]] }
    s.halted = true ∧ ∀ batch, s.host.head? = some batch → ∀ image, HostAction.reset image ∉ batch := by
  refine ⟨rfl, fun batch h image hm => ?_⟩
  cases h
  simp at hm

theorem witness_HaltedMachineTakesNoStep_idle : { State.reset with halted := true }.host.head? = none := rfl

theorem busy_mem : busy.mem = [(0x300, 0x70), (0x301, 0x01), (0x302, 0x13), (0x303, 0x02)] := by decide +kernel

theorem busy_inv : MachineInv busy where
  params := by decide
  memory := by rw [busy_mem]; decide
  stack := by
    refine ⟨by decide, ?_⟩
    intro r hr
    rcases List.mem_cons.mp hr with rfl | hr
    · decide
    · rcases List.mem_cons.mp hr with rfl | hr
      · decide
      · exact absurd hr List.not_mem_nil
  pc := by decide
  fault := ⟨fun _ => rfl, fun h => absurd (show false = true from h) (by decide)⟩

theorem witness_StepKeepsMachineInvariant : MachineInv busy ∧ step busy = .next (ran State.reset (step busy)) := ⟨busy_inv, rfl⟩

/-- A halted state that meets the invariant and that a step leaves, the host having scheduled a reset. -/
def faulted : State :=
  { State.reset with halted := true, fault := ⟨.unknownOpcode, 0x200, 0, 0⟩, host := [[.reset [0x12, 0x00]]] }

theorem faulted_inv : MachineInv faulted where
  params := by decide
  memory := ⟨List.Pairwise.nil, fun _ h => absurd h List.not_mem_nil⟩
  stack := ⟨by decide, fun _ h => absurd h List.not_mem_nil⟩
  pc := by decide
  fault := ⟨fun h => absurd (show true = false from h) (by decide),
    fun _ => ⟨rfl, show (0 : Word) = faulted.wordAtPc ∧ decodeWord 0 = none ∧ (0 : Word) = 0 by decide⟩⟩

theorem witness_ResetMeetsMachineInvariant : ({ defaultParams with stackDepth := 1 }.wf) = true := by decide
theorem witness_ParametersNeverChange : step faulted = .next (ran State.reset (step faulted)) := rfl

theorem witness_StepKeepsMachineInvariant_halted :
    MachineInv faulted ∧ step faulted = .next (ran State.reset (step faulted)) := ⟨faulted_inv, rfl⟩

theorem witness_RunKeepsMachineInvariant : MachineInv busy ∧ SafeRun 2 busy :=
  ⟨busy_inv, ran State.reset (Sys2Proof.core.run 2 busy), rfl, rfl⟩

theorem witness_IdleLoopsChangeNothing_jump :
    let s := atPc 0xFFE [0x1F, 0xFE]
    s.host = [] ∧ s.halted = false ∧ s.pc.toNat ≤ 0xFFE ∧ decodeWord s.wordAtPc = some (.jp 0xFFE) ∧
      (0xFFE : Addr12).toNat = s.pc.toNat := by decide

theorem witness_IdleLoopsChangeNothing_key :
    let s := atPc 0x200 [0xF3, 0x0A]
    s.host = [] ∧ s.halted = false ∧ s.pc.toNat ≤ 0xFFE ∧ s.key = none ∧
      decodeWord s.wordAtPc = some (.ldVxK 3) := by decide

/-- An instruction that completes from `s`. -/
def Completes (i : Instr) (s : State) : Prop := s.halted = false ∧ ∃ t, exec i s = .next t ∧ t.halted = false
/-- An instruction that faults from `s`. -/
def Halts (i : Instr) (s : State) : Prop := s.halted = false ∧ ∃ t, exec i s = .next t ∧ t.halted = true

/-- The four ways of R83 and the fault, for PcMovesInFourWays; the same states serve OnlyDestinationRegistersChange,
OnlyOwnPartsChange and FramePulsesOnlyOnDisplayChange. -/
theorem witness_PcMovesInFourWays_absolute : Completes .ret busy ∧ Completes (.call 0xFFF) busy :=
  ⟨⟨rfl, ran busy (exec .ret busy), rfl, rfl⟩, ⟨rfl, ran busy (exec (.call 0xFFF) busy), rfl, rfl⟩⟩
theorem witness_PcMovesInFourWays_skip : Completes (.skp 0) busy ∧ Completes (.sneImm 0 1) busy :=
  ⟨⟨rfl, ran busy (exec (.skp 0) busy), rfl, rfl⟩, ⟨rfl, ran busy (exec (.sneImm 0 1) busy), rfl, rfl⟩⟩
theorem witness_PcMovesInFourWays_hold : Completes (.ldVxK 0) State.reset ∧ Completes (.ldVxK 0) busy :=
  ⟨⟨rfl, State.reset, rfl, rfl⟩, ⟨rfl, ran busy (exec (.ldVxK 0) busy), rfl, rfl⟩⟩
theorem witness_PcMovesInFourWays_fault : Halts .ret State.reset ∧ Halts (.stRegs 1) busy :=
  ⟨⟨rfl, ran State.reset (exec .ret State.reset), rfl, rfl⟩, ⟨rfl, ran busy (exec (.stRegs 1) busy), rfl, rfl⟩⟩
theorem witness_OnlyDestinationRegistersChange : Completes (.shr 3 4) busy ∧ Completes (.ldRegs 0) busy :=
  ⟨⟨rfl, ran busy (exec (.shr 3 4) busy), rfl, rfl⟩, ⟨rfl, ran busy (exec (.ldRegs 0) busy), rfl, rfl⟩⟩
theorem witness_OnlyOwnPartsChange : Completes (.stRegs 0) busy ∧ Completes (.ldDtVx 2) busy :=
  ⟨⟨rfl, ran busy (exec (.stRegs 0) busy), rfl, rfl⟩, ⟨rfl, ran busy (exec (.ldDtVx 2) busy), rfl, rfl⟩⟩
theorem witness_FramePulsesOnlyOnDisplayChange : Completes (.drw 0 1 1) busy ∧ Halts (.drw 0 1 2) busy :=
  ⟨⟨rfl, ran busy (exec (.drw 0 1 1) busy), rfl, rfl⟩, ⟨rfl, ran busy (exec (.drw 0 1 2) busy), rfl, rfl⟩⟩

theorem witness_ReturnPopsNewestEntry : busy.stack = 0x1000 :: [0x206] ∧ State.reset.stack = [] := by decide
theorem witness_CallPushesReturnAddress :
    { State.reset with stack := List.replicate 15 0x202 }.stack.length < State.reset.params.stackDepth := by
  decide
theorem witness_StackFaultsAreRecorded : State.reset.stack = [] ∧ full.params.stackDepth ≤ full.stack.length := by decide
theorem witness_ReturnResumesAfterCall : Completes (.call 0x210) busy ∧
    { full with stack := (ran busy (exec (.call 0x210) busy)).stack }.stack =
      (ran busy (exec (.call 0x210) busy)).stack :=
  ⟨⟨rfl, ran busy (exec (.call 0x210) busy), rfl, rfl⟩, rfl⟩

theorem witness_AddSetsSumAndCarry_keep :
    (State.resetWith { defaultParams with addVfNoCarry := .keep }).params.addVfNoCarry = .keep ∧
      (regs 1 0xFF 2 0x00).params.addVfNoCarry = .clear := by decide
theorem witness_AddSetsSumAndCarry : (1 : Nibble) ≠ vf ∧
    ¬((regs 1 0xFF 2 0x00).readV 1).toNat + ((regs 1 0xFF 2 0x00).readV 2).toNat > 255 ∧
    ((regs 1 0xFF 2 0x01).readV 1).toNat + ((regs 1 0xFF 2 0x01).readV 2).toNat > 255 := by decide
theorem witness_SubSetsDifferenceAndNoBorrow : (0 : Nibble) ≠ vf ∧
    ((regs 0 0x10 2 0x20).readV 0).toNat < ((regs 0 0x10 2 0x20).readV 2).toNat := by decide
theorem witness_ShiftWritesBothRegisters : (14 : Nibble) ≠ vf ∧ (0 : Nibble) ≠ vf := by decide
theorem witness_RandomIsMasked : { State.reset with rnd := some 0xB7 }.rnd = some 0xB7 := rfl

theorem witness_DrawTogglesCoveredPixels_range : InRange (atI 0xFFE [0x80, 0x80]).i.toNat 2 ∧
    InRange { State.reset with i := 0xFFFF }.i.toNat 0 := by
  constructor
  · exact .inr (by decide)
  · exact .inl rfl
/-- Bit 1 of the sprite row wraps to column 0; bit 2 is 0. -/
theorem witness_DrawTogglesCoveredPixels_covers :
    let s := ((atI 0x300 [0xC0]).writeV 0 0xFF).writeV 1 0xFF
    InRange s.i.toNat 1 ∧ SpriteCovers s 0 1 1 31 0 ∧ ¬SpriteCovers s 0 1 1 31 1 := by
  refine ⟨.inr (by decide), ⟨0, 1, by decide, by decide, by decide, by decide, by decide⟩, ?_⟩
  rintro ⟨j, k, hj, hk, -, hcol, hbit⟩
  have hj0 : j = 0 := by
    have : (1 : Nibble).toNat = 1 := rfl
    omega
  subst hj0
  have hx : ((((atI 0x300 [0xC0]).writeV 0 0xFF).writeV 1 0xFF).readV 0).toNat = 255 := by decide
  have hc : ((1 : Fin 64) : Nat) = 1 := rfl
  have hk2 : k = 2 := by omega
  subst hk2
  exact absurd hbit (by decide)
theorem witness_DrawTogglesCoveredPixels_collides :
    let s := { atI 0xFFF [0x80] with disp := State.reset.disp.toggle 0 0 }
    InRange s.i.toNat 1 ∧ SpriteCollides s 0 1 1 :=
  ⟨.inr (by decide), 0, 0, ⟨0, 0, by decide, by decide, by decide, by decide, by decide⟩, by decide +kernel⟩
theorem witness_DrawTogglesCoveredPixels_no_collision : ¬SpriteCollides { State.reset with i := 0xFFFF } 0 1 0 := by
  rintro ⟨row, col, ⟨j, k, hj, -⟩, -⟩
  exact absurd hj (by simp)

theorem witness_DrawTwiceRestoresDisplay :
    let s := (atI 0x300 [0xC0]).writeV 0 0xFF
    let t := ran s (exec (.drw 0 1 1) s)
    let u := { s with disp := t.disp, pc := 0x500 }
    s.halted = false ∧ exec (.drw 0 1 1) s = .next t ∧ t.halted = false ∧ u.disp = t.disp ∧ u.readV 0 = s.readV 0 ∧
      u.readV 1 = s.readV 1 ∧ u.i = s.i ∧ ∀ a, u.readByte a = s.readByte a :=
  ⟨rfl, rfl, rfl, rfl, rfl, rfl, rfl, fun _ => rfl⟩

theorem witness_SkipsOnKeyState :
    (∃ k, (keyed 0x0F (some 0xF)).key = some k ∧ k.toNat = ((keyed 0x0F (some 0xF)).readV 4).toNat) ∧
    (∀ k, (keyed 0x1F (some 0xF)).key = some k → k.toNat ≠ ((keyed 0x1F (some 0xF)).readV 4).toNat) ∧
    (∀ k, (keyed 0 none).key = some k → k.toNat ≠ ((keyed 0 none).readV 4).toNat) := by decide
theorem witness_KeyWaitHoldsOrLoads : State.reset.key = none ∧ busy.key = some 0xF := by decide

theorem witness_BcdStoresThreeDigits : InRange { State.reset with i := 0xFFD }.i.toNat 3 := .inr (by decide)
theorem witness_StoreRegistersAdvancesIndex : InRange { State.reset with i := 0xFFF }.i.toNat ((0 : Nibble).toNat + 1) ∧
    InRange { State.reset with i := 0xFF0 }.i.toNat ((15 : Nibble).toNat + 1) ∧ (15 : Nibble) ≤ 15 :=
  ⟨.inr (by decide), .inr (by decide), by decide⟩
theorem witness_LoadRegistersKeepsIndex : InRange { State.reset with i := 0xFF8 }.i.toNat ((7 : Nibble).toNat + 1) ∧
    (7 : Nibble) ≤ 7 ∧ (7 : Nibble) < 8 := ⟨.inr (by decide), by decide, by decide⟩
theorem witness_DataOutOfRangeFaults : ¬InRange { State.reset with i := 0xFFE }.i.toNat (3 : Nibble).toNat ∧
    ¬InRange { State.reset with i := 0xFFE }.i.toNat 3 ∧
    ¬InRange { State.reset with i := 0xFFF }.i.toNat ((1 : Nibble).toNat + 1) ∧
    ¬InRange { State.reset with i := 0xFFFF }.i.toNat ((0 : Nibble).toNat + 1) := by
  unfold InRange
  decide

theorem witness_StoreThenLoadRestoresRegisters :
    let s := busy
    let t := ran s (exec (.stRegs 0) s)
    let u := { t with i := 0xFFF }
    s.halted = false ∧ exec (.stRegs 0) s = .next t ∧ t.halted = false ∧ u.i = s.i ∧
      (∀ a, u.readByte a = t.readByte a) ∧ (0 : Nibble) ≤ 0 := ⟨rfl, rfl, rfl, rfl, fun _ => rfl, by decide⟩

/-- The very next step fetches what was stored, at the two highest addresses. -/
theorem witness_StoredBytesAreFetched :
    let s := { (State.reset.writeV 0 0x12).writeV 1 0x34 with i := 0xFFE, pc := 0xFFC }
    let t := ran s (exec (.stRegs 1) s)
    s.halted = false ∧ exec (.stRegs 1) s = .next t ∧ t.halted = false ∧ (0 : Nibble) < 1 ∧
      (∀ a, t.readByte a = t.readByte a) ∧ t.pc.toNat = s.i.toNat + (0 : Nibble).toNat ∧
      decodeWord (s.readV 0 ++ s.readV (0 + 1)) = some (.jp 0x234) ∧ t.host = [] :=
  ⟨rfl, rfl, rfl, by decide, fun _ => rfl, by decide, by decide, rfl⟩

theorem witness_ResetState : (80 : Nat) ≤ 80 ∧ (79 : Nat) < 80 := by decide
theorem witness_BootPlacesImage : (List.replicate 3584 (7 : Byte)).length ≤ 3584 ∧
    (List.replicate 3584 (7 : Byte))[3583]? = some 7 ∧ (List.replicate 3585 (7 : Byte)).length > 3584 := by
  refine ⟨by rw [List.length_replicate], ?_, by rw [List.length_replicate]; decide⟩
  rw [List.getElem?_replicate, if_pos (by decide)]
theorem witness_EqualMemoriesAreEqualData :
    let m : Memory := [(0x205, 1)]
    let n : Memory := rewritten
    m.wf defaultParams ∧ n.wf defaultParams ∧ ∀ a, a < 4096 → m.read defaultParams a = n.read defaultParams a := by
  have h : rewritten = [(0x205, 1)] := by decide
  exact ⟨by decide, by rw [h]; decide, fun a _ => by rw [h]⟩

end Sys2Proof.Tests
end

section
/-! SUPPORT. What the instructions that can fault or hold may do, once for each (`41_control_flow.md` to
`45_index_memory.md`), and the ways an instruction moves `pc` (`40_step_cycle.md` R83). -/

namespace Sys2Proof.Machine

/-! ### The outcomes of the instructions that can fault or hold -/

/-- 00EE (R100, R202). -/
theorem exec_ret_cases (s : State) :
    (s.stack = [] ∧ exec .ret s = .next (takeFault .stackUnderflow (encode .ret) 0 s)) ∨
    ∃ r rest, s.stack = r :: rest ∧ exec .ret s = .next ({ s with stack := rest }.jumpTo r) := by
  simp only [exec, execRet]
  cases s.stack with
  | nil => exact .inl ⟨rfl, rfl⟩
  | cons r rest => exact .inr ⟨r, rest, rfl, rfl⟩

/-- 2nnn (R102, R203). -/
theorem exec_call_cases (nnn : Addr12) (s : State) :
    (s.params.stackDepth ≤ s.stack.length ∧
      exec (.call nnn) s = .next (takeFault .stackOverflow (encode (.call nnn)) 0 s)) ∨
    (s.stack.length < s.params.stackDepth ∧
      exec (.call nnn) s = .next ({ s with stack := (s.pc + 2) :: s.stack }.jumpTo (zextAddr nnn))) := by
  simp only [exec, execCall]
  rcases push_eq s.params.stackDepth (s.pc + 2) s.stack with ⟨hroom, hpush⟩ | ⟨hfull, hpush⟩
  · exact .inr ⟨hroom, by rw [hpush]⟩
  · exact .inl ⟨hfull, by rw [hpush]⟩

/-- Fx0A (R163). -/
theorem exec_ldVxK_cases (x : Nibble) (s : State) :
    (s.key = none ∧ exec (.ldVxK x) s = .next s) ∨
    ∃ k, s.key = some k ∧ exec (.ldVxK x) s = .next (s.writeV x (zextKey k)).advance := by
  simp only [exec, execLdVxK]
  cases s.key with
  | none => exact .inl ⟨rfl, rfl⟩
  | some k => exact .inr ⟨k, rfl, rfl⟩

/-- Dxyn (R143, R205). -/
theorem exec_drw_cases (x y n : Nibble) (s : State) :
    let drawn := drawSprite (s.readV x) (s.readV y) (s.mem.readBytes s.params s.i.toNat n.toNat) s.disp
    (InRange s.i.toNat n.toNat ∧ exec (.drw x y n) s =
      .next ({ s with disp := drawn.1 }.writeV vf (bool01 drawn.2)).pulseFrame.advance) ∨
    (¬InRange s.i.toNat n.toNat ∧ exec (.drw x y n) s =
      .next (takeFault .dataRange (encode (.drw x y n)) (firstAbove s.i.toNat) s)) := by
  simp only [exec, execDrw]
  exact (memRead_cases s.params s.mem s.i.toNat n.toNat).imp
    (fun ⟨hin, hread⟩ => ⟨hin, by rw [hread]⟩) (fun ⟨hout, hread⟩ => ⟨hout, by rw [hread]⟩)

/-- Fx33 (R183, R205). -/
theorem exec_ldB_cases (x : Nibble) (s : State) :
    (InRange s.i.toNat 3 ∧ exec (.ldB x) s =
      .next { s with mem := s.mem.writeBytes s.params s.i.toNat (bcdDigits (s.readV x)) }.advance) ∨
    (¬InRange s.i.toNat 3 ∧ exec (.ldB x) s =
      .next (takeFault .dataRange (encode (.ldB x)) (firstAbove s.i.toNat) s)) := by
  simp only [exec, execLdB]
  exact (memWrite_cases s.params s.mem s.i.toNat (bcdDigits (s.readV x))).imp
    (fun ⟨hin, hwrite⟩ => ⟨hin, by rw [hwrite]⟩) (fun ⟨hout, hwrite⟩ => ⟨hout, by rw [hwrite]⟩)

/-- Fx55 (R184, R205). -/
theorem exec_stRegs_cases (x : Nibble) (s : State) :
    (InRange s.i.toNat (x.toNat + 1) ∧ exec (.stRegs x) s =
      .next { s with
        mem := s.mem.writeBytes s.params s.i.toNat (s.readBlock x)
        i := s.i + (x.setWidth 16 + 1) }.advance) ∨
    (¬InRange s.i.toNat (x.toNat + 1) ∧ exec (.stRegs x) s =
      .next (takeFault .dataRange (encode (.stRegs x)) (firstAbove s.i.toNat) s)) := by
  simp only [exec, execStRegs, ← State.length_readBlock s x]
  exact (memWrite_cases s.params s.mem s.i.toNat (s.readBlock x)).imp
    (fun ⟨hin, hwrite⟩ => ⟨hin, by rw [hwrite]⟩) (fun ⟨hout, hwrite⟩ => ⟨hout, by rw [hwrite]⟩)

/-- Fx65 (R185, R205). -/
theorem exec_ldRegs_cases (x : Nibble) (s : State) :
    (InRange s.i.toNat (x.toNat + 1) ∧ exec (.ldRegs x) s =
      .next (s.writeBlock (s.mem.readBytes s.params s.i.toNat (x.toNat + 1))).advance) ∨
    (¬InRange s.i.toNat (x.toNat + 1) ∧ exec (.ldRegs x) s =
      .next (takeFault .dataRange (encode (.ldRegs x)) (firstAbove s.i.toNat) s)) := by
  simp only [exec, execLdRegs]
  exact (memRead_cases s.params s.mem s.i.toNat (x.toNat + 1)).imp
    (fun ⟨hin, hread⟩ => ⟨hin, by rw [hread]⟩) (fun ⟨hout, hread⟩ => ⟨hout, by rw [hread]⟩)

/-! ### The ways an instruction moves `pc` (R83) -/

/-- The form R83 gives every instruction run from `s` with the result `r`: a fault leaves `pc`, and where the
instruction completes `pc` is as `P` says. -/
def MovesPc (P : Word → Prop) (s : State) (r : Result) : Prop :=
  ∀ t, r = .next t → (t.halted = true → t.pc = s.pc) ∧ (t.halted = false → P t.pc)

section

variable {P : Word → Prop} {s u : State}

/-- A completing instruction only has to meet its class's condition. -/
theorem movesPc_running (hrun : u.halted = false) (hP : P u.pc) : MovesPc P s (.next u) := by
  rintro t ⟨⟩
  exact ⟨fun hhalt => absurd hhalt (by simp [hrun]), fun _ => hP⟩

/-- A fault meets the form whatever the class. -/
theorem movesPc_takeFault (c : FaultCause) (w : Word) (a : Nat) : MovesPc P s (.next (takeFault c w a s)) := by
  rintro t ⟨⟩
  exact ⟨fun _ => takeFault_pc s c w a, fun hrun => absurd hrun (by simp)⟩

/-- "+2", after whatever changed the other parts of the state. -/
theorem movesPc_advance (u : State) (hrun : u.halted = false) (hpc : u.pc = s.pc) :
    MovesPc (· = s.pc + 2) s (.next u.advance) :=
  movesPc_running hrun (by rw [State.advance_pc, hpc])

/-- "+4 or +2". -/
theorem movesPc_skipIf (c : Bool) (hrun : s.halted = false) :
    MovesPc (· = if c then s.pc + 4 else s.pc + 2) s (.next (s.skipIf c)) :=
  movesPc_running hrun (State.skipIf_pc s c)

/-- "set absolute", after whatever changed the other parts of the state. -/
theorem movesPc_jumpTo (u : State) (a : Word) (hrun : u.halted = false) (hP : P a) :
    MovesPc P s (.next (u.jumpTo a)) :=
  movesPc_running hrun hP

/-- "+2" where the data access is in range, a fault where it is not. -/
theorem movesPc_access {A B : Prop} {r : Result} {c : FaultCause} {w : Word} {a : Nat}
    (hcases : (A ∧ r = .next u.advance) ∨ (B ∧ r = .next (takeFault c w a s)))
    (hrun : u.halted = false) (hpc : u.pc = s.pc) : MovesPc (· = s.pc + 2) s r := by
  rcases hcases with ⟨-, rfl⟩ | ⟨-, rfl⟩
  · exact movesPc_advance u hrun hpc
  · exact movesPc_takeFault c w a

/-- 00EE: the newest stack entry, or a fault. -/
theorem movesPc_ret (hrun : s.halted = false) : MovesPc (s.stack.head? = some ·) s (exec .ret s) := by
  rcases exec_ret_cases s with ⟨-, h⟩ | ⟨r, rest, hstack, h⟩ <;> rw [h]
  · exact movesPc_takeFault _ _ _
  · exact movesPc_jumpTo _ r hrun (by rw [hstack, List.head?_cons])

/-- 2nnn: the address, or a fault. -/
theorem movesPc_call (nnn : Addr12) (hrun : s.halted = false) :
    MovesPc (· = zextAddr nnn) s (exec (.call nnn) s) := by
  rcases exec_call_cases nnn s with ⟨-, h⟩ | ⟨-, h⟩ <;> rw [h]
  · exact movesPc_takeFault _ _ _
  · exact movesPc_jumpTo _ _ hrun rfl

/-- Fx0A: no move without a key, "+2" with one. -/
theorem movesPc_ldVxK (x : Nibble) (hrun : s.halted = false) :
    MovesPc (· = if s.key = none then s.pc else s.pc + 2) s (exec (.ldVxK x) s) := by
  rcases exec_ldVxK_cases x s with ⟨hkey, h⟩ | ⟨k, hkey, h⟩ <;> rw [h, hkey]
  · exact movesPc_running hrun rfl
  · exact movesPc_advance (s.writeV x (zextKey k)) hrun rfl

end

/-- Settles O19, instruction by instruction: each is a call of the operation of its class on `pc`. -/
theorem pcMovesInFourWays : Obligations.PcMovesInFourWays := by
  unfold Obligations.PcMovesInFourWays
  intro i s t hrun h
  cases i with
  | jp nnn => exact movesPc_jumpTo (P := (· = zextAddr nnn)) s _ hrun rfl t h
  | call nnn => exact movesPc_call nnn hrun t h
  | ret => exact movesPc_ret hrun t h
  | seImm x nn => simpa using movesPc_skipIf (s.readV x == nn) hrun t h
  | sneImm x nn => simpa using movesPc_skipIf (s.readV x != nn) hrun t h
  | seReg x y => simpa using movesPc_skipIf (s.readV x == s.readV y) hrun t h
  | sneReg x y => simpa using movesPc_skipIf (s.readV x != s.readV y) hrun t h
  | skp x => exact movesPc_skipIf (s.keyIs (s.readV x)) hrun t h
  | sknp x =>
    simpa only [Bool.not_eq_true', ← Bool.not_eq_true, ite_not] using
      movesPc_skipIf (!s.keyIs (s.readV x)) hrun t h
  | ldVxK x => exact movesPc_ldVxK x hrun t h
  | drw x y n => exact movesPc_access (exec_drw_cases x y n s) hrun rfl t h
  | ldB x => exact movesPc_access (exec_ldB_cases x s) hrun rfl t h
  | stRegs x => exact movesPc_access (exec_stRegs_cases x s) hrun rfl t h
  | ldRegs x => exact movesPc_access (exec_ldRegs_cases x s) hrun rfl t h
  | cls | ldImm | addImm | ldReg | andReg | xorReg | addReg | sub | shr | rnd | ldI | addI | ldF | ldVxDt | ldDtVx
  | ldStVx =>
    refine movesPc_advance _ ?_ ?_ t h
    · exact hrun
    · rfl

end Sys2Proof.Machine
end

section
/-! SUPPORT. The jump and the skips of `41_control_flow.md` (R101, R103 to R107): each changes `pc` and nothing else. -/

namespace Sys2Proof.Machine

section

variable (s : State)

/-! ### What a jump and a skip leave unchanged -/

theorem regsKept_jumpTo (a : Word) : RegsKept [] s (s.jumpTo a) := fun r _ => State.readV_jumpTo s a r

theorem regsKept_skipIf (c : Bool) : RegsKept [] s (s.skipIf c) := fun r _ => State.readV_skipIf s c r

/-- A skip is a jump to the address it selects. -/
theorem untouched_skipIf (c : Bool) : Untouched [] s (s.skipIf c) :=
  untouched_jumpTo s (if c then s.pc + 4 else s.pc + 2)

/-! ### Where a skip on two bytes goes -/

/-- Skip if equal (R103, R105). -/
theorem State.skipIf_beq_pc (a b : Byte) : (s.skipIf (a == b)).pc = if a = b then s.pc + 4 else s.pc + 2 := by
  simp only [State.skipIf_pc, beq_iff_eq]

/-- Skip if not equal (R104, R106): the branches of skip if equal, exchanged. -/
theorem State.skipIf_bne_pc (a b : Byte) : (s.skipIf (a != b)).pc = if a = b then s.pc + 2 else s.pc + 4 := by
  simp only [State.skipIf_pc, bne_iff_ne, ne_eq, ite_not]

/-! ### The complementary pair -/

/-- Skip if equal and skip if not equal, on two bytes: the form of both pairs of instructions (R103 to R106). -/
theorem skip_pair_outcomes (a b : Byte) :
    (∃ t, (.next (s.skipIf (a == b)) : Result) = .next t ∧ (t.pc = if a = b then s.pc + 4 else s.pc + 2) ∧
      RegsKept [] s t ∧ Untouched [] s t) ∧
    (∃ t, (.next (s.skipIf (a != b)) : Result) = .next t ∧ (t.pc = if a = b then s.pc + 2 else s.pc + 4) ∧
      RegsKept [] s t ∧ Untouched [] s t) :=
  ⟨⟨_, rfl, s.skipIf_beq_pc a b, regsKept_skipIf s _, untouched_skipIf s _⟩,
    ⟨_, rfl, s.skipIf_bne_pc a b, regsKept_skipIf s _, untouched_skipIf s _⟩⟩

end

/-- Widening with zeros keeps the address (R63): no target is masked or aligned. -/
theorem zextAddr_toNat (nnn : Addr12) : (zextAddr nnn).toNat = nnn.toNat :=
  BitVec.toNat_setWidth_of_le (by decide)

/-- Settles O23: 1nnn is a jump to the widened address. -/
theorem jumpSetsPc : Obligations.JumpSetsPc := by
  unfold Obligations.JumpSetsPc
  intro nnn s
  exact ⟨s.jumpTo (zextAddr nnn), rfl, zextAddr_toNat nnn, regsKept_jumpTo s _, untouched_jumpTo s _⟩

/-- Settles O28: 3xnn and 4xnn are the pair on `V[x]` and the immediate. -/
theorem skipsOnImmediate : Obligations.SkipsOnImmediate := by
  unfold Obligations.SkipsOnImmediate
  intro x nn s
  exact skip_pair_outcomes s (s.readV x) nn

/-- Settles O29: 5xy0 and 9xy0 are the pair on `V[x]` and `V[y]`. -/
theorem skipsOnRegisters : Obligations.SkipsOnRegisters := by
  unfold Obligations.SkipsOnRegisters
  intro x y s
  exact skip_pair_outcomes s (s.readV x) (s.readV y)

end Sys2Proof.Machine
end

section
/-! SUPPORT. The loads and the flagless ALU instructions of `42_load_alu.md` (R120 to R124): each writes one register and
advances `pc`, and differs from the others only in the byte it writes. -/

namespace Sys2Proof.Machine

section

variable {s t : State}

/-! ### Frames across the advance of `pc` -/

/-- What an operation kept of the registers, it still keeps with the advance that ends the instruction. -/
theorem RegsKept.advance {but : List Nibble} (h : RegsKept but s t) : RegsKept but s t.advance :=
  fun r hr => (State.readV_advance t r).trans (h r hr)

/-- What an operation left untouched, it still leaves so with the advance that ends the instruction. -/
theorem Untouched.advance {but : List Part} (h : Untouched but s t) : Untouched but s t.advance :=
  h.trans (by constructor <;> simp)

/-! ### One register written, then the advance -/

/-- The destination holds the byte written, whatever that byte is. -/
theorem State.readV_writeV_advance_same (s : State) (x : Nibble) (b : Byte) : (s.writeV x b).advance.readV x = b := by
  rw [State.readV_advance, State.readV_writeV, if_pos rfl]

/-- The form of R120 to R124: what holds of the byte written holds of the destination, `pc` moves by 2 and the rest
stays. With `x` = 15 the destination is VF, and no flag is written over it. -/
theorem writeV_advance_outcome (x : Nibble) (b : Byte) (P : Byte → Prop) (hP : P b) :
    ∃ t, (.next (s.writeV x b).advance : Result) = .next t ∧
      P (t.readV x) ∧ t.pc = s.pc + 2 ∧ RegsKept [x] s t ∧ Untouched [] s t :=
  ⟨_, rfl, (s.readV_writeV_advance_same x b).symm ▸ hP, State.advance_pc _,
    (regsKept_writeV s x b).advance, (untouched_writeV s x b).advance⟩

end

/-- Settles O30: the byte written is the immediate. -/
theorem loadImmediateSetsRegister : Obligations.LoadImmediateSetsRegister := by
  unfold Obligations.LoadImmediateSetsRegister
  intro x nn s
  exact writeV_advance_outcome x nn (· = nn) rfl

/-- Settles O31: the byte written is the sum of two bytes, which drops the carry out of bit 7. -/
theorem addImmediateWrapsWithoutFlag : Obligations.AddImmediateWrapsWithoutFlag := by
  unfold Obligations.AddImmediateWrapsWithoutFlag
  intro x nn s
  exact writeV_advance_outcome x (s.readV x + nn) (fun b => b.toNat = ((s.readV x).toNat + nn.toNat) % 256)
    (BitVec.toNat_add _ _)

/-- Settles O32: the byte written is `V[y]`, or the AND or the exclusive OR of the two registers read before the write. -/
theorem moveAndXorSetRegister : Obligations.MoveAndXorSetRegister := by
  unfold Obligations.MoveAndXorSetRegister
  intro x y s
  refine ⟨?move, ?and, ?xor⟩
  case move => exact writeV_advance_outcome x (s.readV y) (· = s.readV y) rfl
  case and =>
    exact writeV_advance_outcome x (s.readV x &&& s.readV y)
      (fun b => ∀ j, j < 8 → b.getLsbD j = ((s.readV x).getLsbD j && (s.readV y).getLsbD j))
      (fun _ _ => BitVec.getLsbD_and)
  case xor =>
    exact writeV_advance_outcome x (s.readV x ^^^ s.readV y)
      (fun b => ∀ j, j < 8 → b.getLsbD j = ((s.readV x).getLsbD j != (s.readV y).getLsbD j))
      (fun _ _ => BitVec.getLsbD_xor)

end Sys2Proof.Machine
end

section
/-! SUPPORT. The key wait of `44_keypad_timer.md` (R163): it holds in the same state, or loads the key's code. -/

namespace Sys2Proof.Machine

/-- Widening with zeros keeps the key's code (R163). -/
theorem zextKey_toNat (k : Nibble) : (zextKey k).toNat = k.toNat :=
  BitVec.toNat_setWidth_of_le (by decide)

/-- Settles O41: of the two outcomes of Fx0A the key state picks one, and the byte the second writes is the key's code. -/
theorem keyWaitHoldsOrLoads : Obligations.KeyWaitHoldsOrLoads := by
  unfold Obligations.KeyWaitHoldsOrLoads
  intro x s
  rcases exec_ldVxK_cases x s with ⟨hnone, hexec⟩ | ⟨k, hsome, hexec⟩
  · exact ⟨fun _ => hexec, fun k hsome => nomatch hnone.symm.trans hsome⟩
  · refine ⟨fun hnone => (nomatch hsome.symm.trans hnone), fun k' hkey => ?_⟩
    obtain rfl : k = k' := Option.some.inj (hsome.symm.trans hkey)
    rw [hexec]
    exact writeV_advance_outcome x (zextKey k) (fun b => b.toNat = k.toNat) (zextKey_toNat k)

end Sys2Proof.Machine
end

section
/-! SUPPORT. The two index loads of `45_index_memory.md` (R180, R182): each puts an address in `I` and advances `pc`, and
they differ only in that address. -/

namespace Sys2Proof.Machine

section

variable (s : State) (w : Word)

/-! ### What writing `I` leaves unchanged -/

theorem regsKept_setIndex : RegsKept [] s { s with i := w } := fun r _ => State.readV_congr rfl r

theorem untouched_setIndex : Untouched [.index] s { s with i := w } := by constructor <;> simp

/-! ### `I` written, then the advance -/

/-- The form of Annn and Fx29: `I` holds the number `n` the address stands for, `pc` moves by 2 and the rest stays. -/
theorem setIndex_advance_outcome (n : Nat) (hw : w.toNat = n) :
    ∃ t, (.next { s with i := w }.advance : Result) = .next t ∧
      t.i.toNat = n ∧ t.pc = s.pc + 2 ∧ RegsKept [] s t ∧ Untouched [.index] s t :=
  ⟨_, rfl, hw, State.advance_pc _, (regsKept_setIndex s w).advance, (untouched_setIndex s w).advance⟩

end

/-! ### The addresses -/

/-- Widening with zeros keeps the byte. -/
theorem zextByte_toNat (b : Byte) : (zextByte b).toNat = b.toNat :=
  BitVec.toNat_setWidth_of_le (by decide)

/-- The glyph address is exact (R182): five times the largest byte, 1275, still fits the 16 bits of `I`. -/
theorem zextByte_mul_five_toNat (b : Byte) : (zextByte b * 5).toNat = b.toNat * 5 := by
  have hfits : b.toNat * 5 < 2 ^ 16 := by have := b.isLt; omega
  calc (zextByte b * 5).toNat
      = b.toNat * 5 % 2 ^ 16 := by rw [BitVec.toNat_mul, zextByte_toNat]; rfl
    _ = b.toNat * 5 := Nat.mod_eq_of_lt hfits

/-- Settles O44: the address written is the immediate, widened. -/
theorem loadIndexSetsAddress : Obligations.LoadIndexSetsAddress := by
  unfold Obligations.LoadIndexSetsAddress
  intro nnn s
  exact setIndex_advance_outcome s (zextAddr nnn) nnn.toNat (zextAddr_toNat nnn)

/-- Settles O46: the address written is the product, which no register's value makes wrap. -/
theorem glyphAddressIsFiveTimesRegister : Obligations.GlyphAddressIsFiveTimesRegister := by
  unfold Obligations.GlyphAddressIsFiveTimesRegister
  intro x s
  exact setIndex_advance_outcome s (zextByte (s.readV x) * 5) ((s.readV x).toNat * 5)
    (zextByte_mul_five_toNat (s.readV x))

end Sys2Proof.Machine
end

section
/-! SUPPORT. The decoder and the encoder are inverse to each other (`30_encoding.md` R64, R66). -/

namespace Sys2Proof

/-! ### Decoding the word of an instruction -/

/-- The word of an instruction decodes to that instruction: the family is its leading nibble, and in the families that
look further the fixed low nibble or byte selects the row. -/
@[simp] theorem decodeWord_encode (i : Instr) : decodeWord (encode i) = some i := by
  cases i with
  | cls | ret => rfl
  | jp | call | seImm | sneImm | ldImm | addImm | ldI | rnd | drw => simp [encode, decodeWord]
  | seReg | sneReg => simp [encode, decodeWord]
  | ldReg | andReg | xorReg | addReg | sub | shr => simp [encode, decodeWord, decodeFamily8]
  | skp | sknp => simp [encode, decodeWord, decodeFamilyE]
  | ldVxDt | ldVxK | ldDtVx | ldStVx | addI | ldF | ldB | stRegs | ldRegs => simp [encode, decodeWord, decodeFamilyF]

/-- The decoder on two bytes and more: the word is looked up, the bytes after it are left over. -/
theorem decode_eq_ok_iff {hi lo : Byte} {tail rest : List Byte} {i : Instr} :
    decode (hi :: lo :: tail) = .ok (i, rest) ↔ decodeWord (hi ++ lo) = some i ∧ tail = rest := by
  rw [decode]
  cases decodeWord (hi ++ lo) <;> simp

/-! ### Encoding the instruction of a word -/

section

variable {w : Word} {op n : Nibble} {nn : Byte} {i : Instr}

theorem word_of_a (hop : fieldOp w = op) : op ++ fieldNNN w = w := hop ▸ (word_eq_a w).symm

theorem word_of_xi (hop : fieldOp w = op) : op ++ fieldX w ++ fieldNN w = w := hop ▸ (word_eq_xi w).symm

theorem word_of_x (hop : fieldOp w = op) (hnn : fieldNN w = nn) : op ++ fieldX w ++ nn = w := hnn ▸ word_of_xi hop

theorem word_of_xyn (hop : fieldOp w = op) : op ++ fieldX w ++ fieldY w ++ fieldN w = w := hop ▸ (word_eq_xyn w).symm

theorem word_of_xy (hop : fieldOp w = op) (hn : fieldN w = n) : op ++ fieldX w ++ fieldY w ++ n = w :=
  hn ▸ word_of_xyn hop

theorem encode_of_decodeFamily8 (hop : fieldOp w = 0x8#4) (h : decodeFamily8 w = some i) : encode i = w := by
  unfold decodeFamily8 at h
  split at h <;> cases h <;> exact word_of_xy hop ‹_›

theorem encode_of_decodeFamilyE (hop : fieldOp w = 0xE#4) (h : decodeFamilyE w = some i) : encode i = w := by
  unfold decodeFamilyE at h
  split at h <;> cases h <;> exact word_of_x hop ‹_›

theorem encode_of_decodeFamilyF (hop : fieldOp w = 0xF#4) (h : decodeFamilyF w = some i) : encode i = w := by
  unfold decodeFamilyF at h
  split at h <;> cases h <;> exact word_of_x hop ‹_›

/-- A word that decodes is the word of its instruction: the fields the decoder reads are put back where they stood. -/
theorem encode_of_decodeWord (h : decodeWord w = some i) : encode i = w := by
  unfold decodeWord at h
  split at h
  next => split_ifs at h with hw hw <;> cases h <;> exact hw.symm
  next hop => cases h; exact word_of_a hop
  next hop => cases h; exact word_of_a hop
  next hop => cases h; exact word_of_xi hop
  next hop => cases h; exact word_of_xi hop
  next hop => split_ifs at h with hn; cases h; exact word_of_xy hop hn
  next hop => cases h; exact word_of_xi hop
  next hop => cases h; exact word_of_xi hop
  next hop => exact encode_of_decodeFamily8 hop h
  next hop => split_ifs at h with hn; cases h; exact word_of_xy hop hn
  next hop => cases h; exact word_of_a hop
  next hop => cases h; exact word_of_xi hop
  next hop => cases h; exact word_of_xyn hop
  next hop => exact encode_of_decodeFamilyE hop h
  next hop => exact encode_of_decodeFamilyF hop h
  next => cases h

end

/-- Settles O2: the two bytes put together are the word, which decodes to its instruction. -/
theorem decodeOfEncodeIsTheInstruction : Obligations.DecodeOfEncodeIsTheInstruction := by
  unfold Obligations.DecodeOfEncodeIsTheInstruction
  intro i rest
  refine decode_eq_ok_iff.mpr ⟨?_, rfl⟩
  rw [highByte_append_lowByte, decodeWord_encode]

/-- Settles O3: the word of the two bytes is the instruction's, so the bytes are its two halves. -/
theorem encodeOfDecodeIsTheBytes : Obligations.EncodeOfDecodeIsTheBytes := by
  unfold Obligations.EncodeOfDecodeIsTheBytes
  intro bytes rest i h
  match bytes with
  | [] | [_] => cases h
  | hi :: lo :: tail =>
    obtain ⟨hword, rfl⟩ := decode_eq_ok_iff.mp h
    rw [encodeBytes, encode_of_decodeWord hword, highByte_append, lowByte_append]
    rfl

/-- Settles O1: each word is looked up. -/
theorem writtenWordsDecode : Obligations.WrittenWordsDecode := by
  unfold Obligations.WrittenWordsDecode
  refine ⟨rfl, rfl, rfl, rfl, rfl, rfl, rfl, rfl, rfl, rfl, rfl, rfl, rfl, rfl⟩

end Sys2Proof
end

section
/-! SUPPORT. A word's row of the opcode map is the row of the instruction it decodes to, and the words without a row
(`30_encoding.md` R64, R65). -/

namespace Sys2Proof

/-! ### The opcode map -/

/-- Two rows disagree when, on the bits both their masks look at, they ask for different values. -/
def OpcodeRow.disagree (a b : OpcodeRow) : Bool := decide (a.value &&& b.mask ≠ b.value &&& a.mask)

/-- No word matches two rows that disagree. -/
theorem OpcodeRow.not_both_of_disagree {a b : OpcodeRow} (h : a.disagree b = true) (w : Word) :
    ¬(w &&& a.mask = a.value ∧ w &&& b.mask = b.value) := by
  rintro ⟨ha, hb⟩
  refine of_decide_eq_true h ?_
  rw [← ha, ← hb, BitVec.and_assoc, BitVec.and_assoc, BitVec.and_comm a.mask]

theorem opcodeTable_disagree : opcodeTable.Pairwise fun a b => a.disagree b = true := by decide

/-- Settles O5: every two rows disagree on bits that both their masks look at. -/
theorem opcodeRowsDoNotOverlap : Obligations.OpcodeRowsDoNotOverlap := by
  unfold Obligations.OpcodeRowsDoNotOverlap
  exact ⟨rfl, opcodeTable_disagree.imp OpcodeRow.not_both_of_disagree⟩

/-! ### Words and the rows they match -/

/-- A field that a mask looks at in full has in a matching word the bits the row asks for. -/
theorem extractLsb'_of_match {w mask value : Word} (h : w &&& mask = value) (start len : Nat)
    (hmask : mask.extractLsb' start len = BitVec.allOnes len) :
    w.extractLsb' start len = value.extractLsb' start len := by
  rw [← h, BitVec.extractLsb'_and, hmask, BitVec.and_allOnes]

/-- The mask of a row looks at the whole word, or at the family with the low nibble, the low byte or nothing else. -/
theorem mask_cases {row : OpcodeRow} (hrow : row ∈ opcodeTable) :
    row.mask = 0xFFFF ∨ row.mask = 0xF000 ∨ row.mask = 0xF00F ∨ row.mask = 0xF0FF := by
  revert row
  decide

/-- The value of a row, itself a word that matches it, decodes to an instruction of that row. -/
theorem decodeWord_value {row : OpcodeRow} (hrow : row ∈ opcodeTable) :
    (decodeWord row.value).map Instr.mnemonic = some row.mnemonic := by
  revert row
  decide

/-- A word that matches a row decodes to an instruction of that row: the fields its mask looks at are those the decoder
reads. -/
theorem decodeWord_of_match {w : Word} {row : OpcodeRow} (hrow : row ∈ opcodeTable) (h : w &&& row.mask = row.value) :
    ∃ i, decodeWord w = some i ∧ i.mnemonic = row.mnemonic := by
  rcases mask_cases hrow with hmask | hmask | hmask | hmask <;> rw [hmask] at h
  · obtain rfl : w = row.value := (BitVec.and_allOnes (x := w)).symm.trans h
    exact Option.map_eq_some_iff.mp (decodeWord_value hrow)
  · have hop : fieldOp w = _ := extractLsb'_of_match h 12 4 rfl
    fin_cases hrow <;> simp_all [decodeWord, Instr.mnemonic]
  · have hop : fieldOp w = _ := extractLsb'_of_match h 12 4 rfl
    have hn : fieldN w = _ := extractLsb'_of_match h 0 4 rfl
    fin_cases hrow <;> simp_all [decodeWord, decodeFamily8, Instr.mnemonic]
  · have hop : fieldOp w = _ := extractLsb'_of_match h 12 4 rfl
    have hnn : fieldNN w = _ := extractLsb'_of_match h 0 8 rfl
    fin_cases hrow <;> simp_all [decodeWord, decodeFamilyE, decodeFamilyF, Instr.mnemonic]

/-- The word of every instruction is matched by the row of its mnemonic. -/
theorem row_of_instr (i : Instr) : Laws.RowOfInstr.Statement i :=
  match i with
  | .cls => Laws.RowOfInstr.cls
  | .ret => Laws.RowOfInstr.ret
  | .jp nnn => Laws.RowOfInstr.jp nnn
  | .call nnn => Laws.RowOfInstr.call nnn
  | .seImm x nn => Laws.RowOfInstr.seImm x nn
  | .sneImm x nn => Laws.RowOfInstr.sneImm x nn
  | .seReg x y => Laws.RowOfInstr.seReg x y
  | .ldImm x nn => Laws.RowOfInstr.ldImm x nn
  | .addImm x nn => Laws.RowOfInstr.addImm x nn
  | .ldReg x y => Laws.RowOfInstr.ldReg x y
  | .andReg x y => Laws.RowOfInstr.andReg x y
  | .xorReg x y => Laws.RowOfInstr.xorReg x y
  | .addReg x y => Laws.RowOfInstr.addReg x y
  | .sub x y => Laws.RowOfInstr.sub x y
  | .shr x y => Laws.RowOfInstr.shr x y
  | .sneReg x y => Laws.RowOfInstr.sneReg x y
  | .ldI nnn => Laws.RowOfInstr.ldI nnn
  | .rnd x nn => Laws.RowOfInstr.rnd x nn
  | .drw x y n => Laws.RowOfInstr.drw x y n
  | .skp x => Laws.RowOfInstr.skp x
  | .sknp x => Laws.RowOfInstr.sknp x
  | .ldVxDt x => Laws.RowOfInstr.ldVxDt x
  | .ldVxK x => Laws.RowOfInstr.ldVxK x
  | .ldDtVx x => Laws.RowOfInstr.ldDtVx x
  | .ldStVx x => Laws.RowOfInstr.ldStVx x
  | .addI x => Laws.RowOfInstr.addI x
  | .ldF x => Laws.RowOfInstr.ldF x
  | .ldB x => Laws.RowOfInstr.ldB x
  | .stRegs x => Laws.RowOfInstr.stRegs x
  | .ldRegs x => Laws.RowOfInstr.ldRegs x

theorem opcodeTable_mnemonics_nodup : (opcodeTable.map OpcodeRow.mnemonic).Nodup := by decide

/-- Settles O4. From right to left the word is that of the instruction, whose own row is the only one with its
mnemonic. -/
theorem wordSelectsItsRow : Obligations.WordSelectsItsRow := by
  unfold Obligations.WordSelectsItsRow
  intro w row hrow
  refine ⟨decodeWord_of_match hrow, ?_⟩
  rintro ⟨i, hdecode, hname⟩
  obtain ⟨row', hrow', hname', hmatch⟩ := row_of_instr i
  obtain rfl : row' = row :=
    List.inj_on_of_nodup_map opcodeTable_mnemonics_nodup hrow' hrow (hname'.trans hname)
  rwa [encode_of_decodeWord hdecode] at hmatch

/-! ### The illegal words (R65) -/

theorem fieldOp_toNat (w : Word) : (fieldOp w).toNat = w.toNat / 4096 := by
  have := w.isLt
  simp only [fieldOp, BitVec.extractLsb'_toNat, Nat.shiftRight_eq_div_pow]
  omega

theorem fieldN_toNat (w : Word) : (fieldN w).toNat = w.toNat % 16 := by
  simp [fieldN]

theorem fieldNN_toNat (w : Word) : (fieldNN w).toNat = w.toNat % 256 := by
  simp [fieldNN]

theorem decodeFamily8_eq_none_iff (w : Word) :
    decodeFamily8 w = none ↔ (fieldN w).toNat ∉ [0x0, 0x2, 0x3, 0x4, 0x5, 0x6] := by
  unfold decodeFamily8
  split <;> simp_all [← BitVec.toNat_inj]

theorem decodeFamilyE_eq_none_iff (w : Word) : decodeFamilyE w = none ↔ (fieldNN w).toNat ∉ [0x9E, 0xA1] := by
  unfold decodeFamilyE
  split <;> simp_all [← BitVec.toNat_inj]

theorem decodeFamilyF_eq_none_iff (w : Word) :
    decodeFamilyF w = none ↔ (fieldNN w).toNat ∉ [0x07, 0x0A, 0x15, 0x18, 0x1E, 0x29, 0x33, 0x55, 0x65] := by
  unfold decodeFamilyF
  split <;> simp_all [← BitVec.toNat_inj]

theorem decodeFamily0_eq_none_iff (w : Word) :
    (if w = 0x00E0#16 then some Instr.cls else if w = 0x00EE#16 then some .ret else none) = none ↔
      w.toNat ≠ 0x00E0 ∧ w.toNat ≠ 0x00EE := by
  split_ifs <;> simp_all [← BitVec.toNat_inj]

/-- Settles O6, family by family: the clause of the word's own family is the decoder's test, the other clauses are of
other families. -/
theorem illegalWordsByFamily : Obligations.IllegalWordsByFamily := by
  unfold Obligations.IllegalWordsByFamily
  intro w
  rw [← fieldOp_toNat, ← fieldN_toNat, ← fieldNN_toNat]
  unfold decodeWord
  split
  next hop => simp [hop, decodeFamily0_eq_none_iff]
  next hop => simp [hop]
  next hop => simp [hop]
  next hop => simp [hop]
  next hop => simp [hop]
  next hop => simp [hop, ← BitVec.toNat_inj]
  next hop => simp [hop]
  next hop => simp [hop]
  next hop => simp [hop, decodeFamily8_eq_none_iff]
  next hop => simp [hop, ← BitVec.toNat_inj]
  next hop => simp [hop]
  next hop => simp [hop]
  next hop => simp [hop]
  next hop => simp [hop, decodeFamilyE_eq_none_iff]
  next hop => simp [hop, decodeFamilyF_eq_none_iff]
  next => -- no other arm took the family, so it is B
    simp_all only [imp_false, ← BitVec.toNat_inj, BitVec.toNat_ofNat, true_iff]
    omega

end Sys2Proof
end

section
/-! SUPPORT. What executing any instruction can do, once (`40_step_cycle.md` R83 to R85): it takes the fault that the
state raises for it, or it completes and changes its own registers and parts of the state only. -/

namespace Sys2Proof.Machine

/-! ### The fault an instruction raises (R202, R203, R205) -/

/-- The fault of an access to the `n` bytes from `I` up, with the address it reports. -/
def dataFault (s : State) (n : Nat) : Option (FaultCause × Nat) :=
  (firstOutOfRange s.i.toNat n).map fun bad => (.dataRange, bad)

/-- The fault that executing an instruction from `s` takes, with the address it reports; none where it completes. -/
def raised (s : State) : Instr → Option (FaultCause × Nat)
  | .ret => if s.stack = [] then some (.stackUnderflow, 0) else none
  | .call _ => if s.params.stackDepth ≤ s.stack.length then some (.stackOverflow, 0) else none
  | .drw _ _ n => dataFault s n.toNat
  | .ldB _ => dataFault s 3
  | .stRegs x | .ldRegs x => dataFault s (x.toNat + 1)
  | _ => none

theorem dataFault_of_inRange {s : State} {n : Nat} (h : InRange s.i.toNat n) : dataFault s n = none := by
  rw [dataFault, firstOutOfRange_eq, if_pos (show n = 0 ∨ s.i.toNat + n ≤ 4096 from h), Option.map_none]

theorem dataFault_of_not_inRange {s : State} {n : Nat} (h : ¬InRange s.i.toNat n) :
    dataFault s n = some (.dataRange, firstAbove s.i.toNat) := by
  rw [dataFault, firstOutOfRange_eq, if_neg (show ¬(n = 0 ∨ s.i.toNat + n ≤ 4096) from h), Option.map_some]

theorem inRange_of_dataFault {s : State} {n : Nat} (h : dataFault s n = none) : InRange s.i.toNat n :=
  not_not.mp fun hout => by simp [dataFault_of_not_inRange hout] at h

theorem dataFault_eq_some {s : State} {n : Nat} {c : FaultCause} {a : Nat} (h : dataFault s n = some (c, a)) :
    ¬InRange s.i.toNat n ∧ c = .dataRange ∧ a = firstAbove s.i.toNat := by
  by_cases hin : InRange s.i.toNat n
  · simp [dataFault_of_inRange hin] at h
  · rw [dataFault_of_not_inRange hin] at h
    cases h
    exact ⟨hin, rfl, rfl⟩

/-- 00EE raises no fault where there is an entry to pop. -/
theorem stack_of_ret_not_raised {s : State} (h : raised s .ret = none) : ∃ r rest, s.stack = r :: rest :=
  List.exists_cons_of_ne_nil fun hempty => by simp [raised, hempty] at h

/-- 2nnn raises no fault where there is room for an entry. -/
theorem room_of_call_not_raised {s : State} {nnn : Addr12} (h : raised s (.call nnn) = none) :
    s.stack.length < s.params.stackDepth := by
  simpa [raised] using h

/-- A data access that raises a fault is not performed: of its two outcomes it is the fault. -/
theorem access_of_dataFault {s : State} {n : Nat} {c : FaultCause} {a : Nat} {w : Word} {r : Result} {A : Prop}
    (hraised : dataFault s n = some (c, a))
    (hcases : (InRange s.i.toNat n ∧ A) ∨
      (¬InRange s.i.toNat n ∧ r = .next (takeFault .dataRange w (firstAbove s.i.toNat) s))) :
    r = .next (takeFault c w a s) := by
  obtain ⟨hout, rfl, rfl⟩ := dataFault_eq_some hraised
  exact hcases.elim (fun ⟨hin, _⟩ => absurd hin hout) And.right

/-- An instruction takes the fault that the state raises for it, and its word is recorded (R207). -/
theorem exec_of_raised {s : State} {i : Instr} {c : FaultCause} {a : Nat} (h : raised s i = some (c, a)) :
    exec i s = .next (takeFault c (encode i) a s) := by
  unfold raised at h
  split at h
  next =>
    split_ifs at h with hempty
    cases h
    exact (exec_ret_cases s).elim And.right fun ⟨_, _, hcons, _⟩ => nomatch hempty.symm.trans hcons
  next nnn =>
    split_ifs at h with hfull
    cases h
    exact (exec_call_cases nnn s).elim And.right fun ⟨hroom, _⟩ => absurd hroom (by omega)
  next x y n => exact access_of_dataFault h (exec_drw_cases x y n s)
  next x => exact access_of_dataFault h (exec_ldB_cases x s)
  next x => exact access_of_dataFault h (exec_stRegs_cases x s)
  next x => exact access_of_dataFault h (exec_ldRegs_cases x s)
  next => cases h

/-! ### The outcome of each of them without the fault -/

section

variable {s : State} {x y n : Nibble}

theorem exec_ret_of_cons {r : Word} {rest : List Word} (h : s.stack = r :: rest) :
    exec .ret s = .next ({ s with stack := rest }.jumpTo r) := by
  rcases exec_ret_cases s with ⟨hempty, -⟩ | ⟨r', rest', hcons, hexec⟩
  · cases h.symm.trans hempty
  · cases h.symm.trans hcons
    exact hexec

theorem exec_call_of_room (nnn : Addr12) (h : s.stack.length < s.params.stackDepth) :
    exec (.call nnn) s = .next ({ s with stack := (s.pc + 2) :: s.stack }.jumpTo (zextAddr nnn)) :=
  (exec_call_cases nnn s).elim (fun ⟨hfull, _⟩ => absurd h (by omega)) And.right

theorem exec_drw_of_inRange (h : InRange s.i.toNat n.toNat) :
    let drawn := drawSprite (s.readV x) (s.readV y) (s.mem.readBytes s.params s.i.toNat n.toNat) s.disp
    exec (.drw x y n) s = .next ({ s with disp := drawn.1 }.writeV vf (bool01 drawn.2)).pulseFrame.advance :=
  (exec_drw_cases x y n s).elim And.right fun ⟨hout, _⟩ => absurd h hout

theorem exec_ldB_of_inRange (h : InRange s.i.toNat 3) : exec (.ldB x) s =
    .next { s with mem := s.mem.writeBytes s.params s.i.toNat (bcdDigits (s.readV x)) }.advance :=
  (exec_ldB_cases x s).elim And.right fun ⟨hout, _⟩ => absurd h hout

theorem exec_stRegs_of_inRange (h : InRange s.i.toNat (x.toNat + 1)) : exec (.stRegs x) s =
    .next { s with
      mem := s.mem.writeBytes s.params s.i.toNat (s.readBlock x)
      i := s.i + (x.setWidth 16 + 1) }.advance :=
  (exec_stRegs_cases x s).elim And.right fun ⟨hout, _⟩ => absurd h hout

theorem exec_ldRegs_of_inRange (h : InRange s.i.toNat (x.toNat + 1)) : exec (.ldRegs x) s =
    .next (s.writeBlock (s.mem.readBytes s.params s.i.toNat (x.toNat + 1))).advance :=
  (exec_ldRegs_cases x s).elim And.right fun ⟨hout, _⟩ => absurd h hout

end

/-! ### Frames, one update at a time -/

section

variable {s t : State} {regs : List Nibble} {parts : List Part}

theorem RegsKept.refl (regs : List Nibble) (s : State) : RegsKept regs s s := fun _ _ => rfl

theorem RegsKept.writeV (h : RegsKept regs s t) {x : Nibble} (hx : x ∈ regs) (b : Byte) :
    RegsKept regs s (t.writeV x b) := by
  intro r hr
  rw [State.readV_writeV, if_neg fun hxr : x = r => hr (hxr ▸ hx), h r hr]

theorem Untouched.writeV (h : Untouched parts s t) (x : Nibble) (b : Byte) : Untouched parts s (t.writeV x b) :=
  h.trans (by constructor <;> simp)

/-- A block load keeps the registers past the block. -/
theorem regsKept_writeBlock (s : State) (x : Nibble) {bytes : List Byte} (hlen : bytes.length = x.toNat + 1) :
    RegsKept (destRegs (.ldRegs x)) s (s.writeBlock bytes) := by
  intro r hr
  have hpast : x.toNat + 1 ≤ r.toNat := by
    by_contra hlt
    exact hr (List.mem_map.mpr ⟨r.toNat, List.mem_range.mpr (by omega), by simp⟩)
  rw [State.readV_writeBlock, List.getD_eq_default _ _ (by omega)]

end

/-! ### Completing -/

/-- The `frame_ready` pulses of an instruction that completes (R146). -/
def framePulses : Instr → Nat
  | .cls | .drw _ _ _ => 1
  | _ => 0

/-- What every instruction that completes from `s` keeps in the state `t` it answers. -/
structure Completed (i : Instr) (s t : State) : Prop where
  regs : RegsKept (destRegs i) s t
  parts : Untouched (destParts i) s t
  mem : .memory ∉ destParts i → t.mem = s.mem
  frames : t.frames = s.frames + framePulses i

section

variable {s t : State} {i : Instr}

/-- A change of `pc` alone completes every instruction without a pulse. -/
theorem completed_jumpTo (a : Word) (hframes : framePulses i = 0) : Completed i s (s.jumpTo a) where
  regs r _ := State.readV_jumpTo s a r
  parts := by constructor <;> simp
  mem _ := rfl
  frames := by rw [hframes]; rfl

/-- So does a skip, which is a change of `pc`. -/
theorem completed_skipIf (c : Bool) (hframes : framePulses i = 0) : Completed i s (s.skipIf c) :=
  completed_jumpTo (if c then s.pc + 4 else s.pc + 2) hframes

/-- A register written and the advance complete the instructions that have that destination. -/
theorem Completed.writeV (h : Completed i s t) {x : Nibble} (hx : x ∈ destRegs i) (b : Byte) :
    Completed i s (t.writeV x b) where
  regs := h.regs.writeV hx b
  parts := h.parts.writeV x b
  mem := h.mem
  frames := h.frames

theorem Completed.advance (h : Completed i s t) : Completed i s t.advance where
  regs := h.regs.advance
  parts := h.parts.advance
  mem := h.mem
  frames := h.frames

theorem Completed.refl (s : State) (hframes : framePulses i = 0) : Completed i s s :=
  completed_jumpTo s.pc hframes

/-- Without a fault an instruction completes. -/
theorem exec_of_not_raised (h : raised s i = none) : ∃ t, exec i s = .next t ∧ Completed i s t := by
  cases i with
  | cls =>
    refine ⟨_, rfl, fun _ _ => rfl, ?_, fun _ => rfl, rfl⟩
    constructor <;> simp [destParts]
  | ret =>
    obtain ⟨r, rest, hcons⟩ := stack_of_ret_not_raised h
    refine ⟨_, exec_ret_of_cons hcons, fun _ _ => rfl, ?_, fun _ => rfl, rfl⟩
    constructor <;> simp [destParts]
  | call nnn =>
    refine ⟨_, exec_call_of_room nnn (room_of_call_not_raised h), fun _ _ => rfl, ?_, fun _ => rfl, rfl⟩
    constructor <;> simp [destParts]
  | jp nnn => exact ⟨_, rfl, completed_jumpTo _ rfl⟩
  | seImm | sneImm | seReg | sneReg | skp | sknp => exact ⟨_, rfl, completed_skipIf _ rfl⟩
  | ldImm | addImm | ldReg | andReg | xorReg | ldVxDt =>
    exact ⟨_, rfl, ((Completed.refl s rfl).writeV List.mem_cons_self _).advance⟩
  | addReg | sub =>
    refine ⟨_, rfl, (((Completed.refl s rfl).writeV ?_ _).writeV ?_ _).advance⟩ <;> simp [destRegs]
  | shr =>
    refine ⟨_, rfl, ((((Completed.refl s rfl).writeV ?_ _).writeV ?_ _).writeV ?_ _).advance⟩ <;> simp [destRegs]
  | rnd =>
    refine ⟨_, rfl, (Completed.writeV (t := s.consumeRandom) ?_ List.mem_cons_self _).advance⟩
    refine ⟨fun _ _ => rfl, ?_, fun _ => rfl, rfl⟩
    constructor <;> simp [destParts]
  | ldVxK x =>
    rcases exec_ldVxK_cases x s with ⟨-, hexec⟩ | ⟨k, -, hexec⟩
    · exact ⟨_, hexec, Completed.refl s rfl⟩
    · exact ⟨_, hexec, ((Completed.refl s rfl).writeV List.mem_cons_self _).advance⟩
  | ldI | addI | ldF =>
    exact ⟨_, rfl, Completed.advance ⟨regsKept_setIndex s _, untouched_setIndex s _, fun _ => rfl, rfl⟩⟩
  | ldDtVx =>
    refine ⟨_, rfl, Completed.advance ⟨fun _ _ => rfl, ?_, fun _ => rfl, rfl⟩⟩
    constructor <;> simp [destParts]
  | ldStVx => exact ⟨_, rfl, (Completed.refl s rfl).advance⟩
  | drw x y n =>
    refine ⟨_, exec_drw_of_inRange (inRange_of_dataFault h), Completed.advance ?_⟩
    refine ⟨(RegsKept.refl _ s).writeV List.mem_cons_self _, ?_, fun _ => rfl, rfl⟩
    constructor <;> simp [destParts]
  | ldB x =>
    refine ⟨_, exec_ldB_of_inRange (inRange_of_dataFault h), Completed.advance ?_⟩
    refine ⟨fun _ _ => rfl, ?_, by simp [destParts], rfl⟩
    constructor <;> simp [destParts]
  | stRegs x =>
    refine ⟨_, exec_stRegs_of_inRange (inRange_of_dataFault h), Completed.advance ?_⟩
    refine ⟨fun _ _ => rfl, ?_, by simp [destParts], rfl⟩
    constructor <;> simp [destParts]
  | ldRegs x =>
    refine ⟨_, exec_ldRegs_of_inRange (inRange_of_dataFault h), Completed.advance ?_⟩
    refine ⟨regsKept_writeBlock s x (Memory.length_readBytes ..), ?_, fun _ => rfl, rfl⟩
    constructor <;> simp [destParts]

/-- What an instruction that raises no fault answers is a completion. -/
theorem completed (hexec : exec i s = .next t) (h : raised s i = none) : Completed i s t := by
  obtain ⟨u, hu, hcompleted⟩ := exec_of_not_raised h
  obtain rfl : u = t := Host.Outcome.next.inj (hu.symm.trans hexec)
  exact hcompleted

/-- The two things executing an instruction can do. -/
theorem exec_next_cases (h : exec i s = .next t) :
    (∃ c a, raised s i = some (c, a) ∧ t = takeFault c (encode i) a s) ∨ (raised s i = none ∧ Completed i s t) := by
  cases hraised : raised s i with
  | none => exact .inr ⟨rfl, completed h hraised⟩
  | some fault =>
    obtain ⟨c, a⟩ := fault
    exact .inl ⟨c, a, rfl, Host.Outcome.next.inj (h.symm.trans (exec_of_raised hraised))⟩

theorem faults_notMem_destParts (i : Instr) : .faults ∉ destParts i := by
  cases i <;> simp [destParts]

/-- Completing does not halt the machine, and does not start it. -/
theorem Completed.halted_eq (h : Completed i s t) : t.halted = s.halted :=
  (h.parts.faults (faults_notMem_destParts i)).1

/-- A running machine that an instruction halts took the fault raised. -/
theorem raised_of_halted (hrun : s.halted = false) (h : exec i s = .next t) (hhalt : t.halted = true) :
    ∃ c a, raised s i = some (c, a) ∧ t = takeFault c (encode i) a s := by
  refine (exec_next_cases h).resolve_right fun ⟨_, hcompleted⟩ => ?_
  simp [hcompleted.halted_eq, hrun] at hhalt

/-- An instruction that leaves the machine running completed. -/
theorem completed_of_running (h : exec i s = .next t) (hrun : t.halted = false) :
    raised s i = none ∧ Completed i s t := by
  refine (exec_next_cases h).resolve_left ?_
  rintro ⟨c, a, -, rfl⟩
  cases hrun

end

/-- Settles O20: a fault writes no register, and completing writes the destinations. -/
theorem onlyDestinationRegistersChange : Obligations.OnlyDestinationRegistersChange := by
  unfold Obligations.OnlyDestinationRegistersChange
  intro i s t h
  rcases exec_next_cases h with ⟨c, a, -, rfl⟩ | ⟨-, hcompleted⟩
  · exact fun r _ => readV_takeFault s c _ a r
  · exact hcompleted.regs

/-- Settles O21: the machine has not halted, so the instruction completed. -/
theorem onlyOwnPartsChange : Obligations.OnlyOwnPartsChange := by
  unfold Obligations.OnlyOwnPartsChange
  intro i s t _ h hrun
  exact (completed_of_running h hrun).2.parts

/-- Settles O22: a fault pulses nothing, and completing pulses as `framePulses` says. -/
theorem framePulsesOnlyOnDisplayChange : Obligations.FramePulsesOnlyOnDisplayChange := by
  unfold Obligations.FramePulsesOnlyOnDisplayChange
  intro i s t hrun h
  rcases exec_next_cases h with ⟨c, a, hraised, rfl⟩ | ⟨-, hcompleted⟩
  · cases i with
    | cls => cases hraised
    | _ => rfl
  · rw [hcompleted.frames, hcompleted.halted_eq, hrun]
    cases i <;> rfl

end Sys2Proof.Machine
end

section
/-! SUPPORT. What a step can do (`40_step_cycle.md` R80 to R86) and the fault it reports (`60_exceptions.md` R201, R204,
R207, R208). -/

namespace Sys2Proof.Machine

section

variable {s t : State}

/-! ### The step of a running machine -/

theorem step_of_halted (h : s.afterHost.halted = true) : step s = .fault (.halted s.afterHost.fault.cause) := by
  simp [step, h]

/-- The three things the step of a running machine can do, in the order of R208. -/
theorem step_cases (hrun : s.afterHost.halted = false) :
    (s.afterHost.pc.toNat > 0xFFE ∧
      step s = .next (takeFault .fetchRange 0 (firstAbove s.afterHost.pc.toNat) s.afterHost)) ∨
    (s.afterHost.pc.toNat ≤ 0xFFE ∧ decodeWord s.afterHost.wordAtPc = none ∧
      step s = .next (takeFault .unknownOpcode s.afterHost.wordAtPc 0 s.afterHost)) ∨
    ∃ i, s.afterHost.pc.toNat ≤ 0xFFE ∧ decodeWord s.afterHost.wordAtPc = some i ∧ step s = exec i s.afterHost := by
  simp only [step, hrun, Bool.false_eq_true, if_false]
  rcases fetchDecode_cases s.afterHost with ⟨hpc, h⟩ | ⟨hpc, hdec, h⟩ | ⟨i, hpc, hdec, h⟩
  · exact .inl ⟨hpc, by rw [h]⟩
  · exact .inr (.inl ⟨hpc, hdec, by rw [h]⟩)
  · exact .inr (.inr ⟨i, hpc, hdec, by rw [h]⟩)

theorem step_of_fetchRange (hrun : s.afterHost.halted = false) (hpc : s.afterHost.pc.toNat > 0xFFE) :
    step s = .next (takeFault .fetchRange 0 (firstAbove s.afterHost.pc.toNat) s.afterHost) := by
  rcases step_cases hrun with ⟨-, h⟩ | ⟨hle, -⟩ | ⟨i, hle, -⟩
  · exact h
  all_goals omega

theorem step_of_unknownOpcode (hrun : s.afterHost.halted = false) (hpc : s.afterHost.pc.toNat ≤ 0xFFE)
    (hdec : decodeWord s.afterHost.wordAtPc = none) :
    step s = .next (takeFault .unknownOpcode s.afterHost.wordAtPc 0 s.afterHost) := by
  rcases step_cases hrun with ⟨hgt, -⟩ | ⟨-, -, h⟩ | ⟨i, -, hsome, -⟩
  · omega
  · exact h
  · simp [hdec] at hsome

theorem step_of_decoded {i : Instr} (hrun : s.afterHost.halted = false) (hpc : s.afterHost.pc.toNat ≤ 0xFFE)
    (hdec : decodeWord s.afterHost.wordAtPc = some i) : step s = exec i s.afterHost := by
  rcases step_cases hrun with ⟨hgt, -⟩ | ⟨-, hnone, -⟩ | ⟨j, -, hsome, h⟩
  · omega
  · simp [hdec] at hnone
  · obtain rfl : i = j := Option.some.inj (hdec.symm.trans hsome)
    exact h

/-- With nothing scheduled a running machine runs the instruction at `pc`. -/
theorem step_of_idle {i : Instr} (hidle : s.host = []) (hrun : s.halted = false) (hpc : s.pc.toNat ≤ 0xFFE)
    (hdec : decodeWord s.wordAtPc = some i) : step s = exec i s := by
  have hhost := State.afterHost_of_idle hidle
  have h := step_of_decoded (s := s) (i := i)
  rw [hhost] at h
  exact h hrun hpc hdec

/-- A step that answers a halted state took one fault: of the fetch, of the decode, or raised by the instruction. -/
theorem step_halted_cases (hrun : s.afterHost.halted = false) (h : step s = .next t) (hhalt : t.halted = true) :
    (s.afterHost.pc.toNat > 0xFFE ∧ t = takeFault .fetchRange 0 (firstAbove s.afterHost.pc.toNat) s.afterHost) ∨
    (s.afterHost.pc.toNat ≤ 0xFFE ∧ decodeWord s.afterHost.wordAtPc = none ∧
      t = takeFault .unknownOpcode s.afterHost.wordAtPc 0 s.afterHost) ∨
    ∃ i c a, s.afterHost.pc.toNat ≤ 0xFFE ∧ decodeWord s.afterHost.wordAtPc = some i ∧
      raised s.afterHost i = some (c, a) ∧ t = takeFault c (encode i) a s.afterHost := by
  rcases step_cases hrun with ⟨hpc, hstep⟩ | ⟨hpc, hdec, hstep⟩ | ⟨i, hpc, hdec, hstep⟩ <;> rw [h] at hstep
  · cases hstep
    exact .inl ⟨hpc, rfl⟩
  · cases hstep
    exact .inr (.inl ⟨hpc, hdec, rfl⟩)
  · obtain ⟨c, a, hraised, rfl⟩ := raised_of_halted hrun hstep.symm hhalt
    exact .inr (.inr ⟨i, c, a, hpc, hdec, hraised, rfl⟩)

end

/-! ### What is fetched -/

/-- Settles O7: the two bytes are the word at `pc`; the rest is how the schedule is performed. -/
theorem stepRunsDecodedInstruction : Obligations.StepRunsDecodedInstruction := by
  unfold Obligations.StepRunsDecodedInstruction
  refine ⟨fun s i hrun hpc hdec => ?_, fun s => State.afterHost_of_idle, fun s batch later h => ?_,
    State.hostActions_nil, State.hostActions_cons⟩
  · exact step_of_decoded hrun hpc (decode_eq_ok_iff.mp hdec).1
  · simp [State.afterHost, h]

/-- The word placed by `withFetchWord` is the word at its `pc` (R45). -/
theorem wordAtPc_withFetchWord (s : State) (w : Word) : (s.withFetchWord 16 w.toNat).wordAtPc = w := by
  have hword : BitVec.ofNat 16 (w.toNat % 2 ^ 16) = w := by
    rw [Nat.mod_eq_of_lt w.isLt, BitVec.ofNat_toNat, BitVec.setWidth_eq]
  simp only [State.wordAtPc, State.withFetchWord, State.readByte_eq, Memory.read_writeBytes, hword]
  simp [highByte_append_lowByte]

/-- A word placed by `withFetchWord` can be fetched. -/
theorem pc_withFetchWord_le (s : State) (nbits w : Nat) : (s.withFetchWord nbits w).pc.toNat ≤ 0xFFE := by
  simp only [State.withFetchWord]
  split
  · assumption
  · decide

/-- Settles O8: the word placed is the instruction's, with nothing scheduled before its step. -/
theorem placedInstructionRuns : Obligations.PlacedInstructionRuns := by
  unfold Obligations.PlacedInstructionRuns
  intro s i
  refine step_of_idle rfl rfl (pc_withFetchWord_le s _ _) ?_
  rw [wordAtPc_withFetchWord, decodeWord_encode]

/-! ### The faults of fetch and decode -/

/-- The first address above 0xFFF fits the record's 16 bits. -/
theorem ofNat_firstAbove (w : Word) : BitVec.ofNat 16 (firstAbove w.toNat) = if w.toNat > 0xFFF then w else 0x1000 := by
  unfold firstAbove
  split
  · rw [BitVec.ofNat_toNat, BitVec.setWidth_eq]
  · rfl

/-- Settles O9: above 0x0FFE only 0x0FFF is not itself above 0xFFF. -/
theorem fetchOutOfRangeFaults : Obligations.FetchOutOfRangeFaults := by
  unfold Obligations.FetchOutOfRangeFaults
  intro s hrun hpc
  rw [step_of_fetchRange hrun hpc, takeFault, ofNat_firstAbove]
  have hlast : s.afterHost.pc = 0x0FFF ↔ ¬s.afterHost.pc.toNat > 0xFFF := by
    rw [← BitVec.toNat_inj]
    simp
    omega
  simp only [hlast, ite_not]

/-- Settles O10: the decode faults, and its record holds the word. -/
theorem unknownOpcodeFaults : Obligations.UnknownOpcodeFaults := by
  unfold Obligations.UnknownOpcodeFaults
  intro s hrun hpc hdec
  rw [step_of_unknownOpcode hrun hpc hdec]
  rfl

/-- Settles O11: a fault of the machine is a next state, and so is what an instruction answers. -/
theorem stepAnswersUnlessHalted : Obligations.StepAnswersUnlessHalted := by
  unfold Obligations.StepAnswersUnlessHalted
  refine fun s => ⟨fun hrun => ?_, step_of_halted⟩
  rcases step_cases hrun with ⟨-, h⟩ | ⟨-, -, h⟩ | ⟨i, -, -, h⟩
  · exact ⟨_, h⟩
  · exact ⟨_, h⟩
  · cases hraised : raised s.afterHost i with
    | some fault => exact ⟨_, h.trans (exec_of_raised hraised)⟩
    | none =>
      obtain ⟨t, ht, -⟩ := exec_of_not_raised hraised
      exact ⟨t, h.trans ht⟩

/-! ### The fault reported (R207, R208) -/

/-- No instruction raises the cause "none", and none a fault of fetch or decode. -/
theorem raised_cause {s : State} {i : Instr} {c : FaultCause} {a : Nat} (h : raised s i = some (c, a)) :
    (c = .stackUnderflow ∧ i = .ret) ∨ (c = .stackOverflow ∧ ∃ nnn, i = .call nnn) ∨
    (c = .dataRange ∧ ∃ x y n, i = .drw x y n ∨ i = .ldB x ∨ i = .stRegs x ∨ i = .ldRegs x) := by
  unfold raised at h
  split at h
  next =>
    split_ifs at h
    cases h
    exact .inl ⟨rfl, rfl⟩
  next nnn =>
    split_ifs at h
    cases h
    exact .inr (.inl ⟨rfl, nnn, rfl⟩)
  next x y n => exact .inr (.inr ⟨(dataFault_eq_some h).2.1, x, y, n, .inl rfl⟩)
  next x => exact .inr (.inr ⟨(dataFault_eq_some h).2.1, x, 0, 0, .inr (.inl rfl)⟩)
  next x => exact .inr (.inr ⟨(dataFault_eq_some h).2.1, x, 0, 0, .inr (.inr (.inl rfl))⟩)
  next x => exact .inr (.inr ⟨(dataFault_eq_some h).2.1, x, 0, 0, .inr (.inr (.inr rfl))⟩)
  next => cases h

/-- Settles O12: each of the three faults is a `takeFault` of the state after the host's actions. -/
theorem faultsArePrecise : Obligations.FaultsArePrecise := by
  unfold Obligations.FaultsArePrecise
  intro s t hrun h hhalt
  rcases step_halted_cases hrun h hhalt with ⟨-, rfl⟩ | ⟨-, -, rfl⟩ | ⟨i, c, a, -, -, hraised, rfl⟩
  · exact ⟨rfl, rfl, nofun⟩
  · exact ⟨rfl, rfl, nofun⟩
  · refine ⟨rfl, rfl, ?_⟩
    rcases raised_cause hraised with ⟨rfl, -⟩ | ⟨rfl, -⟩ | ⟨rfl, -⟩ <;> exact nofun

/-- Settles O13: in each of the three cases the cause is known, and the case excludes the others' conditions. -/
theorem firstFaultIsReported : Obligations.FirstFaultIsReported := by
  unfold Obligations.FirstFaultIsReported
  intro s t hrun h hhalt
  rcases step_halted_cases hrun h hhalt with ⟨hpc, rfl⟩ | ⟨hpc, hdec, rfl⟩ | ⟨i, c, a, hpc, hdec, hraised, rfl⟩
  · simp [hpc, Nat.not_le.mpr hpc]
  · simp [hpc, hdec, Nat.not_lt.mpr hpc]
  · rcases raised_cause hraised with ⟨rfl, rfl⟩ | ⟨rfl, nnn, rfl⟩ | ⟨rfl, hdata⟩
    · simp [hpc, hdec, Nat.not_lt.mpr hpc]
    · simp [hpc, hdec, Nat.not_lt.mpr hpc]
    · rcases hdata with ⟨x, y, n, rfl | rfl | rfl | rfl⟩ <;> simp [hpc, hdec, Nat.not_lt.mpr hpc]

/-! ### The halted machine and the idle loops -/

/-- An action that is no reset leaves `halted` and the record as they are. -/
theorem hostAction_fault_eq (s : State) {a : HostAction} (h : ∀ image, a ≠ .reset image) :
    (s.hostAction a).halted = s.halted ∧ (s.hostAction a).fault = s.fault := by
  cases a with
  | reset image => exact absurd rfl (h image)
  | _ => exact ⟨rfl, rfl⟩

theorem hostActions_fault_eq (s : State) {batch : List HostAction} (h : ∀ image, .reset image ∉ batch) :
    (s.hostActions batch).halted = s.halted ∧ (s.hostActions batch).fault = s.fault := by
  induction batch generalizing s with
  | nil => exact ⟨rfl, rfl⟩
  | cons a batch ih =>
    obtain ⟨hhalted, hfault⟩ := ih (s.hostAction a) fun image hmem => h image (List.mem_cons_of_mem a hmem)
    obtain ⟨hhalted', hfault'⟩ := hostAction_fault_eq s (a := a) fun image heq => h image (heq ▸ List.mem_cons_self)
    exact ⟨hhalted.trans hhalted', hfault.trans hfault'⟩

/-- Settles O14: a batch without a reset leaves the machine halted, with its record. -/
theorem haltedMachineTakesNoStep : Obligations.HaltedMachineTakesNoStep := by
  unfold Obligations.HaltedMachineTakesNoStep
  intro s hhalt hbatch
  obtain ⟨hhalted, hfault⟩ : s.afterHost.halted = s.halted ∧ s.afterHost.fault = s.fault := by
    unfold State.afterHost
    split
    next => exact ⟨rfl, rfl⟩
    next batch later hhost => exact hostActions_fault_eq _ (hbatch batch (by rw [hhost]; rfl))
  rw [step_of_halted (hhalted.trans hhalt), hfault]

/-- A state that a step answers to itself is answered by any number of steps. -/
theorem core_run_of_fixed {s : State} (h : step s = .next s) (k : Nat) : Sys2Proof.core.run k s = .next s := by
  induction k with
  | zero => rfl
  | succ k ih =>
    rw [core_run_succ, h]
    exact ih

/-- Settles O18: the instruction at `pc` answers the state it finds. -/
theorem idleLoopsChangeNothing : Obligations.IdleLoopsChangeNothing := by
  unfold Obligations.IdleLoopsChangeNothing
  intro k s hidle hrun hpc hloop
  refine core_run_of_fixed ?_ k
  rcases hloop with ⟨nnn, hdec, hself⟩ | ⟨hnone, x, hdec⟩
  · have htarget : zextAddr nnn = s.pc := BitVec.eq_of_toNat_eq ((zextAddr_toNat nnn).trans hself)
    calc step s = .next (s.jumpTo (zextAddr nnn)) := step_of_idle hidle hrun hpc hdec
      _ = .next s := by rw [htarget]; rfl
  · exact (step_of_idle hidle hrun hpc hdec).trans ((keyWaitHoldsOrLoads x s).1 hnone)

/-! ### The parameters -/

theorem hostAction_params (s : State) (a : HostAction) : (s.hostAction a).params = s.params := by
  cases a <;> rfl

theorem hostActions_params (s : State) (batch : List HostAction) : (s.hostActions batch).params = s.params :=
  State.hostActions_induction (P := fun t => t.params = s.params)
    (fun t a h => (hostAction_params t a).trans h) s batch rfl

theorem afterHost_params (s : State) : s.afterHost.params = s.params := by
  unfold State.afterHost
  split
  · rfl
  · exact hostActions_params _ _

/-- Settles O59: neither the host, nor a fault, nor a completing instruction changes the parameters. -/
theorem parametersNeverChange : Obligations.ParametersNeverChange := by
  unfold Obligations.ParametersNeverChange
  refine ⟨fun s t h => ?_, fun _ _ _ => rfl⟩
  refine Eq.trans ?_ (afterHost_params s)
  rcases step_cases (step_next_cases h).1 with ⟨-, hstep⟩ | ⟨-, -, hstep⟩ | ⟨i, -, -, hstep⟩ <;> rw [h] at hstep
  · cases hstep
    rfl
  · cases hstep
    rfl
  · rcases exec_next_cases hstep.symm with ⟨c, a, -, rfl⟩ | ⟨-, hcompleted⟩
    · rfl
    · exact hcompleted.parts.params

end Sys2Proof.Machine
end

section
/-! SUPPORT. The invariant of every reachable state (`10_state.md`, `40_step_cycle.md` R89, `60_exceptions.md` R200,
R207): it holds after reset, the host's actions keep it, a fault keeps it by writing a record that matches, and an
instruction that completes keeps it part by part. -/

namespace Sys2Proof.Machine

/-! ### Reset and the host -/

theorem machineInv_boot {p : Config.Params} (hp : p.wf = true) (image : List Byte) :
    MachineInv (State.boot p image) where
  params := hp
  memory := wf_bootMemory p image
  stack := ⟨Nat.zero_le _, nofun⟩
  pc := show (0x0200 : Word).toNat ≤ 0x1002 by decide
  fault := ⟨fun _ => rfl, nofun⟩

theorem machineInv_resetWith {p : Config.Params} (hp : p.wf = true) : MachineInv (State.resetWith p) where
  params := hp
  memory := Memory.wf_nil p
  stack := ⟨Nat.zero_le _, nofun⟩
  pc := show (0x0200 : Word).toNat ≤ 0x1002 by decide
  fault := ⟨fun _ => rfl, nofun⟩

/-- Settles O16: the parameters of this hardware are legal. -/
theorem resetMeetsMachineInvariant : Obligations.ResetMeetsMachineInvariant := by
  unfold Obligations.ResetMeetsMachineInvariant
  exact ⟨machineInv_resetWith (by decide), fun p => machineInv_resetWith⟩

section

variable {s t : State} {i : Instr} {c : FaultCause} {a : Nat}

/-- The invariant says nothing of the inputs, the timer and the schedule. -/
theorem MachineInv.hostAction (h : MachineInv s) (a : HostAction) : MachineInv (s.hostAction a) := by
  cases a with
  | tick | setKey | supplyRandom => exact ⟨h.params, h.memory, h.stack, h.pc, h.fault⟩
  | reset image =>
    obtain ⟨hparams, hmemory, hstack, hpc, hfault⟩ := machineInv_boot h.params image
    exact ⟨hparams, hmemory, hstack, hpc, hfault⟩

theorem MachineInv.afterHost (h : MachineInv s) : MachineInv s.afterHost := by
  unfold State.afterHost
  split
  next => exact h
  next batch later _ =>
    exact State.hostActions_induction (fun _ a hinv => hinv.hostAction a) _ batch
      ⟨h.params, h.memory, h.stack, h.pc, h.fault⟩

/-! ### Faults -/

/-- A fault keeps the invariant when its record matches the state. -/
theorem MachineInv.takeFault (h : MachineInv s) {w : Word} (hrecord : RecordMatches (takeFault c w a s)) :
    MachineInv (takeFault c w a s) :=
  ⟨h.params, h.memory, h.stack, h.pc, nofun, fun _ => ⟨rfl, hrecord⟩⟩

/-- The record holds the first address above 0xFFF exactly. -/
theorem toNat_ofNat_firstAbove (w : Word) : (BitVec.ofNat 16 (firstAbove w.toNat)).toNat = firstAbove w.toNat := by
  rw [ofNat_firstAbove, firstAbove]
  split <;> rfl

/-- The record of a fault raised by the instruction at `pc` matches the state it left. -/
theorem recordMatches_of_raised (hstack : StackInv s) (hword : encode i = s.wordAtPc) (h : raised s i = some (c, a)) :
    RecordMatches (Machine.takeFault c (encode i) a s) := by
  have hdata {n : Nat} (h : dataFault s n = some (c, a)) : RecordMatches (Machine.takeFault c (encode i) a s) := by
    obtain ⟨-, rfl, rfl⟩ := dataFault_eq_some h
    exact ⟨hword, toNat_ofNat_firstAbove s.i⟩
  unfold raised at h
  split at h
  next =>
    split_ifs at h with hempty
    cases h
    exact ⟨rfl, hempty, rfl⟩
  next nnn =>
    split_ifs at h with hfull
    cases h
    exact ⟨fieldOp_a 2 nnn, Nat.le_antisymm hstack.1 hfull, rfl⟩
  next => exact hdata h
  next => exact hdata h
  next => exact hdata h
  next => exact hdata h
  next => cases h

/-! ### Completing instructions -/

/-- Only Fx33 and Fx55 change memory: by a store in range. -/
theorem memory_wf_of_completed (hwf : s.mem.wf s.params) (hraised : raised s i = none) (h : exec i s = .next t)
    (hcompleted : Completed i s t) : t.mem.wf t.params := by
  have hsame (hmem : .memory ∉ destParts i) : t.mem.wf t.params := by
    rwa [hcompleted.mem hmem, hcompleted.parts.params]
  cases i with
  | ldB x =>
    have hin := inRange_of_dataFault hraised
    cases h.symm.trans (exec_ldB_of_inRange hin)
    exact Memory.wf_writeBytes _ hwf (.inl (hin.resolve_left (by decide)))
  | stRegs x =>
    have hin := inRange_of_dataFault hraised
    cases h.symm.trans (exec_stRegs_of_inRange hin)
    refine Memory.wf_writeBytes _ hwf (.inl ?_)
    rw [State.length_readBlock]
    exact hin.resolve_left (Nat.succ_ne_zero _)
  | _ => exact hsame (by simp [destParts])

/-- Only 00EE and 2nnn change the stack: one entry less, or one more, the address after the call. -/
theorem stackInv_of_completed (hstack : StackInv s) (hpc : s.pc.toNat ≤ 0xFFE) (hraised : raised s i = none)
    (h : exec i s = .next t) (hcompleted : Completed i s t) : StackInv t := by
  obtain ⟨hdepth, hentries⟩ := hstack
  have hsame (hkept : .stack ∉ destParts i) : StackInv t := by
    rw [StackInv, hcompleted.parts.stack hkept, hcompleted.parts.params]
    exact ⟨hdepth, hentries⟩
  cases i with
  | ret =>
    obtain ⟨r, rest, hcons⟩ := stack_of_ret_not_raised hraised
    cases h.symm.trans (exec_ret_of_cons hcons)
    rw [hcons] at hdepth hentries
    exact ⟨Nat.le_of_succ_le hdepth, fun a ha => hentries a (List.mem_cons_of_mem r ha)⟩
  | call nnn =>
    have hroom := room_of_call_not_raised hraised
    cases h.symm.trans (exec_call_of_room nnn hroom)
    refine ⟨hroom, fun a ha => ?_⟩
    rcases List.mem_cons.mp ha with rfl | ha
    · bv_omega
    · exact hentries a ha
  | _ => exact hsame (by simp [destParts])

/-- The ways of R83 lead from a fetchable `pc` to at most 0x1002. -/
theorem pc_of_completed (hstack : StackInv s) (hpc : s.pc.toNat ≤ 0xFFE) (hrun : s.halted = false)
    (h : exec i s = .next t) (hcompleted : Completed i s t) : t.pc.toNat ≤ 0x1002 := by
  have hmove := (pcMovesInFourWays i s t hrun h).2 (hcompleted.halted_eq.trans hrun)
  have haddr (nnn : Addr12) : (zextAddr nnn).toNat ≤ 0x1002 := by
    have := nnn.isLt
    rw [zextAddr_toNat]
    omega
  have hnext : (s.pc + 2).toNat ≤ 0x1002 := by bv_omega
  have hskip : (s.pc + 4).toNat ≤ 0x1002 := by bv_omega
  cases i with
  | jp nnn | call nnn => exact hmove ▸ haddr nnn
  | ret => exact (hstack.2 _ (List.mem_of_mem_head? hmove)).trans (by decide)
  | seImm | sneImm | seReg | sneReg | skp | sknp | ldVxK =>
    simp only at hmove
    rw [hmove]
    split <;> omega
  | _ => exact hmove ▸ hnext

/-- An instruction that completes in a running machine keeps the invariant. -/
theorem MachineInv.of_completed (hinv : MachineInv s) (hpc : s.pc.toNat ≤ 0xFFE) (hrun : s.halted = false)
    (hraised : raised s i = none) (h : exec i s = .next t) (hcompleted : Completed i s t) : MachineInv t where
  params := hcompleted.parts.params ▸ hinv.params
  memory := memory_wf_of_completed hinv.memory hraised h hcompleted
  stack := stackInv_of_completed hinv.stack hpc hraised h hcompleted
  pc := pc_of_completed hinv.stack hpc hrun h hcompleted
  fault := by
    obtain ⟨hhalted, hfault⟩ := hcompleted.parts.faults (faults_notMem_destParts i)
    refine ⟨fun _ => hfault.trans (hinv.fault.1 hrun), fun hhalt => ?_⟩
    simp [hhalted, hrun] at hhalt

end

/-- Settles O15: the host's actions, then one of the three things a step can do. -/
theorem stepKeepsMachineInvariant : Obligations.StepKeepsMachineInvariant := by
  unfold Obligations.StepKeepsMachineInvariant
  intro s t hinv h
  replace hinv := hinv.afterHost
  have hrun := (step_next_cases h).1
  rcases step_cases hrun with ⟨hpc, hstep⟩ | ⟨hpc, hdec, hstep⟩ | ⟨i, hpc, hdec, hstep⟩ <;> rw [h] at hstep
  · cases hstep
    exact hinv.takeFault ⟨rfl, hpc, toNat_ofNat_firstAbove _⟩
  · cases hstep
    exact hinv.takeFault ⟨rfl, hdec, rfl⟩
  · rcases exec_next_cases hstep.symm with ⟨c, a, hraised, rfl⟩ | ⟨hraised, hcompleted⟩
    · exact hinv.takeFault (recordMatches_of_raised hinv.stack (encode_of_decodeWord hdec) hraised)
    · exact hinv.of_completed hpc hrun hraised hstep.symm hcompleted

/-- The invariant is kept along a run of any length. -/
theorem MachineInv.core_run {s t : State} (hinv : MachineInv s) {k : Nat} (h : Sys2Proof.core.run k s = .next t) :
    MachineInv t := by
  induction k generalizing s with
  | zero =>
    cases h
    exact hinv
  | succ k ih =>
    rw [core_run_succ] at h
    split at h
    next u hstep => exact ih (stepKeepsMachineInvariant s u hinv hstep) h
    next => cases h
    next => cases h

/-- Settles O17: a safe run ends in a running state that meets the invariant. -/
theorem runKeepsMachineInvariant : Obligations.RunKeepsMachineInvariant := by
  unfold Obligations.RunKeepsMachineInvariant
  refine fun k s hinv => ⟨fun t => hinv.core_run, ?_⟩
  rintro ⟨t, hend, hrun⟩
  have hinv' := hinv.core_run hend
  exact ⟨t, hend, hinv'.fault.1 hrun, hinv'.pc⟩

end Sys2Proof.Machine
end

section
/-! SUPPORT. Call and return (`41_control_flow.md` R100, R102, R109, R202, R203). -/

namespace Sys2Proof.Machine

theorem exec_ret_of_nil {s : State} (h : s.stack = []) :
    exec .ret s = .next (takeFault .stackUnderflow (encode .ret) 0 s) :=
  exec_of_raised (if_pos h)

theorem exec_call_of_full {s : State} (nnn : Addr12) (h : s.params.stackDepth ≤ s.stack.length) :
    exec (.call nnn) s = .next (takeFault .stackOverflow (encode (.call nnn)) 0 s) :=
  exec_of_raised (if_pos h)

/-- Settles O24: a pop where there is an entry, the fault where there is none. -/
theorem returnPopsNewestEntry : Obligations.ReturnPopsNewestEntry := by
  unfold Obligations.ReturnPopsNewestEntry
  refine ⟨fun s r rest hcons => ?_, fun s hempty => ⟨_, exec_ret_of_nil hempty, rfl, rfl, hempty, rfl⟩⟩
  have hexec := exec_ret_of_cons hcons
  obtain ⟨hregs, hparts, -, -⟩ := completed hexec (by simp [raised, hcons])
  exact ⟨_, hexec, rfl, rfl, hregs, hparts⟩

/-- Settles O25: there is room, so the call is performed. -/
theorem callPushesReturnAddress : Obligations.CallPushesReturnAddress := by
  unfold Obligations.CallPushesReturnAddress
  intro nnn s hroom
  have hexec := exec_call_of_room nnn hroom
  obtain ⟨hregs, hparts, -, -⟩ := completed hexec (by simp [raised, hroom])
  exact ⟨_, hexec, rfl, zextAddr_toNat nnn, hregs, hparts⟩

/-- Settles O26: each of the two faults is a `takeFault`, with the instruction's own word. -/
theorem stackFaultsAreRecorded : Obligations.StackFaultsAreRecorded := by
  unfold Obligations.StackFaultsAreRecorded
  exact ⟨fun s => exec_ret_of_nil, fun nnn s => exec_call_of_full nnn, rfl, rfl, rfl, rfl, rfl, rfl⟩

/-- Settles O27: the call pushed its return address, and the return pops it. -/
theorem returnResumesAfterCall : Obligations.ReturnResumesAfterCall := by
  unfold Obligations.ReturnResumesAfterCall
  intro nnn s t u _ hcall hrun hstack
  rcases exec_call_cases nnn s with ⟨-, hexec⟩ | ⟨-, hexec⟩ <;> rw [hcall] at hexec <;> cases hexec
  · cases hrun
  · exact ⟨_, exec_ret_of_cons hstack, rfl, rfl⟩

end Sys2Proof.Machine
end

section
/-! SUPPORT. The flag-writing ALU instructions and the random byte of `42_load_alu.md` (R125 to R128): the bytes written
and the order in which they are written. -/

namespace Sys2Proof.Machine

theorem State.readV_writeV_same (s : State) (x : Nibble) (b : Byte) : (s.writeV x b).readV x = b :=
  (State.readV_writeV s x x b).trans (if_pos rfl)

theorem State.readV_writeV_of_ne (s : State) {x y : Nibble} (h : x ≠ y) (b : Byte) :
    (s.writeV x b).readV y = s.readV y :=
  (State.readV_writeV s x y b).trans (if_neg h)

/-- Settles O33: the flag is written last, so it is what VF holds; under `keep` it is what VF held after the sum. -/
theorem addSetsSumAndCarry : Obligations.AddSetsSumAndCarry := by
  unfold Obligations.AddSetsSumAndCarry
  intro x y s
  obtain ⟨hregs, hparts, -, -⟩ := completed (i := .addReg x y) (s := s) rfl rfl
  refine ⟨_, rfl, fun hx => ?_, ?_, rfl, hregs, hparts⟩
  · rw [State.readV_advance, State.readV_writeV_of_ne _ (Ne.symm hx), State.readV_writeV_same]
    exact BitVec.toNat_add _ _
  · rw [State.readV_writeV_advance_same, State.readV_writeV]
    rfl

/-- The byte difference is the exact difference modulo 256. -/
theorem toNat_sub_emod (a b : Byte) : ((a - b).toNat : Int) = (a.toNat - b.toNat : Int) % 256 := by
  have := a.isLt
  have := b.isLt
  rw [BitVec.toNat_sub]
  omega

theorem noBorrowFlag_eq (a b : Byte) : noBorrowFlag a b = if a.toNat < b.toNat then 0 else 1 := by
  simp only [noBorrowFlag, bool01, decide_eq_true_eq, ← Nat.not_lt, ite_not]

/-- Settles O34: the flag is written last. -/
theorem subSetsDifferenceAndNoBorrow : Obligations.SubSetsDifferenceAndNoBorrow := by
  unfold Obligations.SubSetsDifferenceAndNoBorrow
  intro x y s
  obtain ⟨hregs, hparts, -, -⟩ := completed (i := .sub x y) (s := s) rfl rfl
  refine ⟨_, rfl, fun hx => ?_, ?_, rfl, hregs, hparts⟩
  · rw [State.readV_advance, State.readV_writeV_of_ne _ (Ne.symm hx), State.readV_writeV_same]
    exact toNat_sub_emod _ _
  · rw [State.readV_writeV_advance_same, noBorrowFlag_eq]

theorem toNat_half (b : Byte) : (b >>> 1).toNat = b.toNat / 2 := by
  simp [Nat.shiftRight_eq_div_pow]

theorem toNat_shiftedOutFlag (b : Byte) : (shiftedOutFlag b).toNat = b.toNat % 2 := by
  simp [shiftedOutFlag]

/-- Settles O35: `V[y]` and `V[x]` are written after the flag, both with the same byte. -/
theorem shiftWritesBothRegisters : Obligations.ShiftWritesBothRegisters := by
  unfold Obligations.ShiftWritesBothRegisters
  intro x y s
  obtain ⟨hregs, hparts, -, -⟩ := completed (i := .shr x y) (s := s) rfl rfl
  refine ⟨_, rfl, ?_, ?_, fun hx hy => ?_, rfl, hregs, hparts⟩
  · rw [State.readV_writeV_advance_same, toNat_half]
  · rw [State.readV_advance, State.readV_writeV, State.readV_writeV_same, ite_self, toNat_half]
  · rw [State.readV_advance, State.readV_writeV_of_ne _ hx, State.readV_writeV_of_ne _ hy, State.readV_writeV_same,
      toNat_shiftedOutFlag]

/-- Settles O36: the byte is the sample, which is the presented byte where there is one. -/
theorem randomIsMasked : Obligations.RandomIsMasked := by
  unfold Obligations.RandomIsMasked
  intro x nn s
  obtain ⟨hregs, hparts, -, -⟩ := completed (i := .rnd x nn) (s := s) rfl rfl
  have hloaded : ((s.consumeRandom.writeV x (s.randomByte &&& nn)).advance).readV x = s.randomByte &&& nn :=
    State.readV_writeV_advance_same _ x _
  refine ⟨_, rfl, ⟨s.randomByte, hloaded, fun b hb => ?_⟩, ?_, rfl, rfl, hregs, hparts⟩
  · rw [State.randomByte, hb, Option.getD_some]
  · rw [hloaded, BitVec.and_assoc, BitVec.and_not_self]
    exact BitVec.and_zero

end Sys2Proof.Machine
end

section
/-! SUPPORT. The key skips and the timers of `44_keypad_timer.md` (R161, R162, R164 to R166), and the sum of `I`
(`45_index_memory.md` R181). -/

namespace Sys2Proof.Machine

/-- `KeyIs` compares the key's code with the whole register (R160, D14). -/
theorem State.keyIs_eq_true_iff (s : State) (c : Byte) :
    s.keyIs c = true ↔ ∃ k, s.key = some k ∧ k.toNat = c.toNat := by
  unfold State.keyIs
  cases s.key with
  | none => simp
  | some k =>
    rw [show (zextKey k == c) = true ↔ k.toNat = c.toNat by rw [beq_iff_eq, ← BitVec.toNat_inj, zextKey_toNat]]
    simp

theorem State.keyIs_eq_false_iff (s : State) (c : Byte) :
    s.keyIs c = false ↔ ∀ k, s.key = some k → k.toNat ≠ c.toNat := by
  rw [← Bool.not_eq_true, State.keyIs_eq_true_iff]
  push Not
  rfl

/-- Settles O40: the two skip on opposite conditions. -/
theorem skipsOnKeyState : Obligations.SkipsOnKeyState := by
  unfold Obligations.SkipsOnKeyState
  intro x s
  simp only [← State.keyIs_eq_true_iff, ← State.keyIs_eq_false_iff]
  refine ⟨⟨_, rfl, fun h => ?_, fun h => ?_, regsKept_skipIf s _, untouched_skipIf s _⟩,
    ⟨_, rfl, fun h => ?_, fun h => ?_, regsKept_skipIf s _, untouched_skipIf s _⟩⟩ <;> simp [h]

/-- Settles O42: the read is a register write, and the write touches the timer alone. -/
theorem timerReadAndWrite : Obligations.TimerReadAndWrite := by
  unfold Obligations.TimerReadAndWrite
  intro x s
  obtain ⟨hregs, hparts, -, -⟩ := completed (i := .ldDtVx x) (s := s) rfl rfl
  exact ⟨writeV_advance_outcome x s.dt (· = s.dt) rfl, _, rfl, rfl, rfl, hregs, hparts⟩

/-- Settles O43: there is no sound timer to write. -/
theorem soundTimerWriteDoesNothing : Obligations.SoundTimerWriteDoesNothing := by
  unfold Obligations.SoundTimerWriteDoesNothing
  exact fun _ _ => rfl

/-- Settles O45: a 16-bit sum drops its carry. -/
theorem addIndexWrapsAtSixteenBits : Obligations.AddIndexWrapsAtSixteenBits := by
  unfold Obligations.AddIndexWrapsAtSixteenBits
  intro x s
  refine setIndex_advance_outcome s _ _ ?_
  rw [BitVec.toNat_add, zextByte_toNat]

end Sys2Proof.Machine
end

section
/-! SUPPORT. The display instructions of `43_display.md` (R142 to R144). -/

namespace Sys2Proof.Machine

/-- Settles O37: the display written is the cleared one. -/
theorem clearTurnsEveryPixelOff : Obligations.ClearTurnsEveryPixelOff := by
  unfold Obligations.ClearTurnsEveryPixelOff
  intro s
  obtain ⟨hregs, hparts, -, -⟩ := completed (i := .cls) (s := s) rfl rfl
  exact ⟨_, rfl, Display.pixel_clear, rfl, hregs, hparts⟩

/-- Settles O38: what the draw engine does to the display and answers as collision, with VF written from the latter. -/
theorem drawTogglesCoveredPixels : Obligations.DrawTogglesCoveredPixels := by
  unfold Obligations.DrawTogglesCoveredPixels
  intro x y n s hin
  have hexec := exec_drw_of_inRange (x := x) (y := y) hin
  obtain ⟨hpixel, hhit⟩ := drawSprite_spec s x y n
  obtain ⟨hregs, hparts, -, -⟩ := completed hexec (dataFault_of_inRange hin)
  refine ⟨_, hexec, fun r c => (hpixel r c).1, fun r c => (hpixel r c).2, fun hcol => ?_, fun hcol => ?_, rfl, hregs,
    hparts⟩
  · simp [bool01, hhit.mpr hcol]
  · simp [bool01, Bool.eq_false_iff.mpr (mt hhit.mp hcol)]

section

variable {s t u : State} {x y n : Nibble}

/-- The pixels a sprite targets depend on the coordinates, `I` and memory alone. -/
theorem spriteCovers_congr (hx : u.readV x = s.readV x) (hy : u.readV y = s.readV y) (hi : u.i = s.i)
    (hmem : ∀ a, u.readByte a = s.readByte a) (r : Fin 32) (c : Fin 64) :
    SpriteCovers u x y n r c ↔ SpriteCovers s x y n r c := by
  simp only [SpriteCovers, hx, hy, hi, hmem]

/-- A Dxyn that completed had its bytes in range. -/
theorem inRange_of_exec_drw (h : exec (.drw x y n) s = .next t) (hrun : t.halted = false) : InRange s.i.toNat n.toNat :=
  inRange_of_dataFault (completed_of_running h hrun).1

end

/-- Settles O39: both draws toggle the same pixels. -/
theorem drawTwiceRestoresDisplay : Obligations.DrawTwiceRestoresDisplay := by
  unfold Obligations.DrawTwiceRestoresDisplay
  intro x y n s t u _ hdraw hrun hdisp hx hy hi hmem
  have hin := inRange_of_exec_drw hdraw hrun
  have hcovers := spriteCovers_congr (n := n) hx hy hi hmem
  obtain ⟨t', hdraw', hon, hoff, -⟩ := drawTogglesCoveredPixels x y n s hin
  obtain rfl : t = t' := Host.Outcome.next.inj (hdraw.symm.trans hdraw')
  obtain ⟨w, hagain, hon', hoff', hvf, hvf', -⟩ := drawTogglesCoveredPixels x y n u (hi ▸ hin)
  simp only [hcovers, hdisp] at hon' hoff'
  refine ⟨w, hagain, Display.ext_pixel fun r c => ?_, ?_⟩
  · by_cases hc : SpriteCovers s x y n r c
    · rw [hon' r c hc, hon r c hc, Bool.not_not]
    · rw [hoff' r c hc, hoff r c hc]
  · have hcollides : SpriteCollides u x y n ↔ ∃ r c, SpriteCovers s x y n r c ∧ t.disp.pixel r c = true := by
      simp only [SpriteCollides, hcovers, hdisp]
    rw [← hcollides]
    by_cases hcol : SpriteCollides u x y n
    · exact ⟨fun _ => hcol, fun _ => hvf hcol⟩
    · rw [hvf' hcol]
      exact ⟨nofun, fun h => absurd h hcol⟩

end Sys2Proof.Machine
end

section
/-! SUPPORT. The memory instructions of `45_index_memory.md` (R183 to R185, R205): what is stored and loaded, and a
store seen by the loads and the fetches after it (`20_memory.md` R53). -/

namespace Sys2Proof.Machine

/-! ### Stores and loads in range -/

/-- A store of several bytes keeps every byte outside them. -/
theorem Memory.read_writeBytes_outside (p : Config.Params) (m : Memory) (a : Nat) (bytes : List Byte) {b : Nat}
    (h : b < a ∨ a + bytes.length ≤ b) : (m.writeBytes p a bytes).read p b = m.read p b := by
  rw [Memory.read_writeBytes]
  split
  · exact List.getD_eq_default _ _ (by omega)
  · rfl

/-- A store of several bytes puts byte `j` of the list at `a + j`. -/
theorem Memory.read_writeBytes_inside (p : Config.Params) (m : Memory) (a : Nat) {bytes : List Byte} {j : Nat}
    {b : Byte} (h : bytes[j]? = some b) : (m.writeBytes p a bytes).read p (a + j) = b := by
  rw [Memory.read_writeBytes, if_pos (Nat.le_add_right a j), Nat.add_sub_cancel_left, List.getD_eq_getElem?_getD, h,
    Option.getD_some]

theorem bcdDigits_toNat (b : Byte) :
    ∃ hundreds tens ones, bcdDigits b = [hundreds, tens, ones] ∧ hundreds.toNat = b.toNat / 100 ∧
      tens.toNat = b.toNat / 10 % 10 ∧ ones.toNat = b.toNat % 10 := by
  have := b.isLt
  refine ⟨_, _, _, rfl, ?_, ?_, ?_⟩ <;> rw [BitVec.toNat_ofNat] <;> omega

/-- Settles O47: the three bytes of the store are the three digits. -/
theorem bcdStoresThreeDigits : Obligations.BcdStoresThreeDigits := by
  unfold Obligations.BcdStoresThreeDigits
  intro x s hin
  have hexec := exec_ldB_of_inRange (x := x) hin
  obtain ⟨hregs, hparts, -, -⟩ := completed hexec (dataFault_of_inRange hin)
  obtain ⟨hundreds, tens, ones, hdigits, hhundreds, htens, hones⟩ := bcdDigits_toNat (s.readV x)
  rw [hdigits] at hexec hparts hregs
  refine ⟨_, hexec, ?_, ?_, ?_, fun b hb => ?_, rfl, hregs, hparts⟩
  · rw [← hhundreds]
    exact congrArg _ (Memory.read_writeBytes_inside _ _ _ (j := 0) rfl)
  · rw [← htens]
    exact congrArg _ (Memory.read_writeBytes_inside _ _ _ (j := 1) rfl)
  · rw [← hones]
    exact congrArg _ (Memory.read_writeBytes_inside _ _ _ (j := 2) rfl)
  · exact Memory.read_writeBytes_outside _ _ _ _ hb

/-- Settles O48: the stored bytes are in range, so `I` moves past them without a wrap. -/
theorem storeRegistersAdvancesIndex : Obligations.StoreRegistersAdvancesIndex := by
  unfold Obligations.StoreRegistersAdvancesIndex
  intro x s hin
  have hexec := exec_stRegs_of_inRange hin
  obtain ⟨hregs, hparts, -, -⟩ := completed hexec (dataFault_of_inRange hin)
  refine ⟨_, hexec, fun k hk => ?_, fun b hb => ?_, ?_, rfl, hregs, hparts⟩
  · exact Memory.read_writeBytes_inside _ _ _ (State.getElem?_readBlock s x k hk)
  · exact Memory.read_writeBytes_outside _ _ _ _ (by rwa [State.length_readBlock])
  · have hfits : s.i.toNat + (x.toNat + 1) ≤ 4096 := hin.resolve_left (Nat.succ_ne_zero _)
    have := x.isLt
    simp
    omega

/-- Settles O49: register `k` takes byte `k` of the block read; there is none for the registers above `x`. -/
theorem loadRegistersKeepsIndex : Obligations.LoadRegistersKeepsIndex := by
  unfold Obligations.LoadRegistersKeepsIndex
  intro x s hin
  have hexec := exec_ldRegs_of_inRange hin
  obtain ⟨-, hparts, -, -⟩ := completed hexec (dataFault_of_inRange hin)
  refine ⟨_, hexec, fun k hk => ?_, fun k hk => ?_, rfl, hparts⟩
  · rw [State.readV_advance, State.readV_writeBlock, List.getD_eq_getElem?_getD,
      Memory.getElem?_readBytes _ _ _ _ _ (Nat.lt_succ_of_le hk), Option.getD_some]
    rfl
  · rw [State.readV_advance, State.readV_writeBlock, List.getD_eq_default]
    rw [Memory.length_readBytes]
    exact hk

/-! ### Accesses out of range -/

/-- Settles O50: the instruction raises the fault of its access. -/
theorem dataOutOfRangeFaults : Obligations.DataOutOfRangeFaults := by
  unfold Obligations.DataOutOfRangeFaults
  intro i s hout
  rw [← ofNat_firstAbove]
  refine exec_of_raised ?_
  cases i with
  | drw | ldB | stRegs | ldRegs => exact dataFault_of_not_inRange hout
  | _ => exact hout.elim

/-! ### What follows a store -/

/-- A Fx55 that completed was in range, and left what StoreRegistersAdvancesIndex says. -/
theorem readByte_of_exec_stRegs {x : Nibble} {s t : State} (h : exec (.stRegs x) s = .next t)
    (hrun : t.halted = false) :
    InRange s.i.toNat (x.toNat + 1) ∧ ∀ k, k ≤ x → t.readByte (s.i.toNat + k.toNat) = s.readV k := by
  have hin := inRange_of_dataFault (completed_of_running h hrun).1
  obtain ⟨t', hexec, hstored, -⟩ := storeRegistersAdvancesIndex x s hin
  obtain rfl : t = t' := Host.Outcome.next.inj (h.symm.trans hexec)
  exact ⟨hin, hstored⟩

/-- Settles O51: each register is loaded from the byte it was stored in. -/
theorem storeThenLoadRestoresRegisters : Obligations.StoreThenLoadRestoresRegisters := by
  unfold Obligations.StoreThenLoadRestoresRegisters
  intro x s t u _ hstore hrun hi hmem
  obtain ⟨hin, hstored⟩ := readByte_of_exec_stRegs hstore hrun
  obtain ⟨w, hload, hloaded, -⟩ := loadRegistersKeepsIndex x u (hi ▸ hin)
  refine ⟨w, hload, fun k hk => ?_⟩
  rw [hloaded k hk, hmem, hi, hstored k hk]

/-- Settles O52: the two bytes at `pc` are the two registers stored there. -/
theorem storedBytesAreFetched : Obligations.StoredBytesAreFetched := by
  unfold Obligations.StoredBytesAreFetched
  intro x k s t u _ hstore hrun hk hmem hpc
  obtain ⟨hin, hstored⟩ := readByte_of_exec_stRegs hstore hrun
  have hfits : s.i.toNat + (x.toNat + 1) ≤ 4096 := hin.resolve_left (Nat.succ_ne_zero _)
  have hnext : (k + 1).toNat = k.toNat + 1 := by bv_omega
  have hk' : k.toNat + 1 ≤ x.toNat := hk
  have hword : u.wordAtPc = s.readV k ++ s.readV (k + 1) := by
    rw [State.wordAtPc, hpc, hmem, hmem, hstored k (BitVec.le_of_lt hk), Nat.add_assoc, ← hnext, hstored (k + 1)]
    exact BitVec.le_def.mpr (hnext.symm ▸ hk')
  exact ⟨hword, fun i hdec hidle hrunning => step_of_idle hidle hrunning (by omega) (hword ▸ hdec)⟩

end Sys2Proof.Machine
end

section
/-! SUPPORT. Reset, boot and the host's actions (`70_reset_and_hazards.md` R230 to R232, `60_exceptions.md` R213). -/

namespace Sys2Proof.Machine

/-! ### Reset and boot -/

/-- Memory after reset reads as the font table and the fill. -/
theorem readByte_resetWith (p : Config.Params) (a : Nat) :
    (∀ h : a < 80, (State.resetWith p).readByte a = p.fontTable[a]) ∧
      (80 ≤ a → (State.resetWith p).readByte a = p.memFill) :=
  ⟨fun h => dif_pos h, fun h => dif_neg (Nat.not_lt.mpr h)⟩

/-- Settles O53: the 80 bytes are read off, every other clause is a field of the reset state. -/
theorem resetState : Obligations.ResetState := by
  unfold Obligations.ResetState
  refine ⟨rfl, rfl, Display.pixel_clear, by decide, fun x => Vector.getElem_replicate x.isLt, rfl, rfl,
    fun a ha => (readByte_resetWith defaultParams a).2 ha, rfl, rfl, rfl, rfl, rfl, readByte_resetWith, fun _ => rfl⟩

theorem bootMemory_of_fits (p : Config.Params) {image : List Byte} (h : image.length ≤ 3584) :
    bootMemory p image = Memory.writeBytes [] p 0x200 image :=
  if_pos (decide_eq_true h)

theorem bootMemory_of_too_long (p : Config.Params) {image : List Byte} (h : image.length > 3584) :
    bootMemory p image = [] :=
  if_neg (by simpa [imageFits] using h)

/-- Settles O54: an image that fits is one store from 0x200 up into reset memory. -/
theorem bootPlacesImage : Obligations.BootPlacesImage := by
  unfold Obligations.BootPlacesImage
  refine fun p image => ⟨fun hfits => ⟨fun k b hb => ?_, fun a ha => ?_⟩, bootMemory_of_too_long p, rfl⟩
  · exact (congrArg (Memory.read · p (0x200 + k)) (bootMemory_of_fits p hfits)).trans
      (Memory.read_writeBytes_inside p [] 0x200 hb)
  · exact (congrArg (Memory.read · p a) (bootMemory_of_fits p hfits)).trans
      (Memory.read_writeBytes_outside p [] 0x200 image ha)

/-! ### The host's actions -/

theorem tickDown_toNat (dt : Byte) : (tickDown dt).toNat = dt.toNat - 1 := by
  unfold tickDown
  split
  · next h => rw [h]; rfl
  · bv_omega

/-- Settles O55, by induction on the number of ticks. -/
theorem ticksCountDownToZero : Obligations.TicksCountDownToZero := by
  unfold Obligations.TicksCountDownToZero
  intro n
  induction n with
  | zero =>
    intro s
    simp
  | succ n ih =>
    intro s
    have htick : s.hostAction .tick = { s with dt := tickDown s.dt } := rfl
    rw [List.replicate_succ, State.hostActions_cons, ih, htick]
    simp only [tickDown_toNat]
    rw [Nat.sub_sub, Nat.add_comm]

/-- Settles O56: each action is one update. -/
theorem hostActionsSetInputsOrReset : Obligations.HostActionsSetInputsOrReset := by
  unfold Obligations.HostActionsSetInputsOrReset
  exact fun s => ⟨fun _ => rfl, fun _ => rfl, fun _ => ⟨rfl, rfl, rfl⟩⟩

end Sys2Proof.Machine
end

section
/-! SUPPORT. Memory and the display as data: the canonical form determines the list (`20_memory.md`), and the read-out
is the display's rows one after the other (`43_display.md` R140, R147). -/

namespace Sys2Proof.Machine

/-! ### The canonical form of memory -/

section

variable {p : Config.Params} {m n : Memory} {a : Nat} {b : Byte}

/-- Addresses rising, a listed cell is what its address reads as. -/
theorem Memory.read_of_mem (hrising : m.Pairwise fun c d => c.1 < d.1) (h : (a, b) ∈ m) : m.read p a = b := by
  induction m with
  | nil => cases h
  | cons c m ih =>
    obtain ⟨hfirst, hrest⟩ := List.pairwise_cons.mp hrising
    rcases List.mem_cons.mp h with rfl | h
    · exact if_pos rfl
    · exact (if_neg (Nat.ne_of_gt (hfirst _ h))).trans (ih hrest h)

/-- An address that does not read as after reset is listed. -/
theorem Memory.mem_of_read_ne (h : m.read p a ≠ Memory.resetByte p a) : (a, m.read p a) ∈ m := by
  induction m with
  | nil => exact absurd rfl h
  | cons c m ih =>
    obtain ⟨a', b'⟩ := c
    rw [Memory.read] at h ⊢
    split
    next heq => exact heq ▸ List.mem_cons_self
    next hne =>
      rw [if_neg hne] at h
      exact List.mem_cons_of_mem _ (ih h)

/-- A memory in canonical form lists no cell that another one, reading the same, does not list. -/
theorem Memory.mem_of_read_eq (hm : m.wf p) (hread : ∀ a, a < 4096 → m.read p a = n.read p a) {c : Host.Cell}
    (hc : c ∈ m) : c ∈ n := by
  obtain ⟨a, b⟩ := c
  obtain ⟨hrising, hcells⟩ := hm
  obtain ⟨ha, hb⟩ := hcells _ hc
  have hn : n.read p a = b := (hread a ha).symm.trans (Memory.read_of_mem hrising hc)
  have hmem := Memory.mem_of_read_ne (m := n) (hn.symm ▸ hb)
  rwa [hn] at hmem

end

/-- Settles O57: the two lists hold the same cells, in the same, rising, order. -/
theorem equalMemoriesAreEqualData : Obligations.EqualMemoriesAreEqualData := by
  unfold Obligations.EqualMemoriesAreEqualData
  intro p m n hm hn hread
  have : Std.Antisymm fun c d : Host.Cell => c.1 < d.1 := ⟨fun _ _ h h' => absurd h (Nat.lt_asymm h')⟩
  have : Std.Irrefl fun c d : Host.Cell => c.1 < d.1 := ⟨fun c => Nat.lt_irrefl c.1⟩
  refine hm.1.eq_of_mem_iff hn.1 fun c => ⟨Memory.mem_of_read_eq hm hread, Memory.mem_of_read_eq hn ?_⟩
  exact fun a ha => (hread a ha).symm

/-! ### The read-out of the display -/

/-- The read-out is the display, flattened. -/
theorem State.readBuffer_eq (s : State) : s.readBuffer = s.disp.flatten.toList := by
  simp only [State.readBuffer, Vector.flatten, Vector.toList, Array.toList_flatten, Array.toList_map, List.map_map]
  rfl

/-- Settles O58: entry `row * 64 + col` of the flattened display is in row `row`, at `col`. -/
theorem readOutIsRowMajor : Obligations.ReadOutIsRowMajor := by
  unfold Obligations.ReadOutIsRowMajor
  intro s
  rw [State.readBuffer_eq]
  refine ⟨Vector.length_toList, fun row col => ?_⟩
  have hlt : row.val * 64 + col.val < 32 * 64 := by omega
  have hrow : (row.val * 64 + col.val) / 64 = row.val := by omega
  have hcol : (row.val * 64 + col.val) % 64 = col.val := by omega
  rw [List.getElem?_eq_getElem (by rwa [Vector.length_toList]), Vector.getElem_toList, Vector.getElem_flatten hlt]
  simp only [hrow, hcol, Display.pixel]

end Sys2Proof.Machine
end
